-- ==== Sys2Proof/Word.lean ====
section
/-! DEFINITION. The word and byte types of the block (R8, R9) and the engine selector (R16, R38). -/

namespace Sys2Proof

/-- A `u64`: every datapath word and every register is 64 bits wide (R8, R9, R18). -/
abbrev Word := BitVec 64

/-- One byte of a message or of the aperture (R12, R53). -/
abbrev Byte := BitVec 8

/-- The two hash engines E[0] and E[1] (R38). -/
inductive EngineSel where
  | e0
  | e1
  deriving DecidableEq, Repr

end Sys2Proof
end

