-- ==== Sys2Proof/Config.lean ====
section
/-! DEFINITION. What an implementation of the block fixes (R7) and the values the spec leaves open, as opaque
constants (R64, R139, R150; 92_eei_decisions.md "OPEN parameters"). -/

namespace Sys2Proof

/-- The capacities of one implementation (R7). The model takes them as an argument: every state carries the
parameters of the block it is a state of, and no step changes them. -/
structure Params where
  /-- `MMAX`: bit-vector storage capacity in bits, the largest legal M. -/
  mmax : Nat
  /-- `KMAX`: the largest legal K. -/
  kmax : Nat
  /-- `MSGMAX`: message-buffer capacity in bytes, the largest legal MSGLEN. -/
  msgmax : Nat
  deriving DecidableEq, Repr

/-- The reference configuration of R7. -/
def Params.reference : Params := { mmax := 1048576, kmax := 255, msgmax := 4096 }

/-- The byte a message-buffer position reads as until its first write after reset: one draw for each reset and
each position, constrained by nothing (R139). The first argument counts hardware resets. -/
opaque Config.msgByte : Nat → Nat → Byte

/-- The value of a bit-vector cell between a reset and the first CONFIGURE (R45, R40(a)): one draw for each reset
and each cell. -/
opaque Config.cell : Nat → Nat → Bool

/-- The value a read of a volatile location returns while BUSY = 1: a fresh draw on each read (R64). The argument is
the state's draw counter. -/
opaque Config.volatileRead : Nat → Word

/-- LATENCY: how many turns the host gets between the acceptance of a command and its completion; finite, may be
zero, not bounded (R150). The argument is the state's draw counter. -/
opaque Config.latency : Nat → Nat

/-- The remainder by zero, which the spec never evaluates and gives no value (R97, R99). -/
opaque Config.modZero : Word → Word

/-- BASE divided by 2^21 (R7: BASE is OPEN, a multiple of 2^21). -/
opaque Config.apertureNumber : Nat

/-- BASE, the byte address of the aperture on the host bus (R7, R47). -/
def Config.base : Nat := Config.apertureNumber * 2 ^ 21

end Sys2Proof
end

