-- ==== Sys2Proof/Syntax.lean ====
section
/-! DEFINITION. The eleven commands of the block (R72), one constructor per row of spec/opcode_table.json. A command
word carries no immediate and no register number (R71): the one operand in the word is the engine of HRESET and
HWRITE. -/

namespace Sys2Proof

/-- The commands (R2, R72). -/
inductive Instr where
  /-- NOP (R110). -/
  | nop
  /-- CONFIGURE (R112). -/
  | configure
  /-- CLEAR (R102). -/
  | clear
  /-- HRESET e (R88). -/
  | hreset (e : EngineSel)
  /-- HWRITE e (R89). -/
  | hwrite (e : EngineSel)
  /-- INDEX (R98). -/
  | index
  /-- TEST (R104). -/
  | test
  /-- MARK (R105). -/
  | mark
  /-- POPCNT (R107). -/
  | popcnt
  /-- SET (R114). -/
  | set
  /-- INCLUDES (R116). -/
  | includes
  deriving DecidableEq, Repr

end Sys2Proof
end

