-- ==== Sys2Proof/Machine/BusTypes.lean ====
section
/-! DEFINITION. The data of the host interface: the registers of the map (R18), host bus requests and responses
(R46, R49), what a host does next, and the statements of the host assembly (R77 to R81). -/

namespace Sys2Proof.Machine

/-- The 19 registers of the register map (R18). -/
inductive Reg where
  | id
  | capMmax
  | capKmax
  | capMsgmax
  | cmd
  | status
  | arg0
  | arg1
  | result
  | m
  | k
  | setbits
  | msglen
  | seed0
  | seed1
  | e0h0
  | e0h1
  | e1h0
  | e1h1
  deriving DecidableEq, Repr

/-- What one 8-byte location of the aperture is (R48). -/
inductive Region where
  /-- A register (R18). -/
  | reg (r : Reg)
  /-- Word w of the MSGBUF window (R57). -/
  | msgWord (w : Nat)
  /-- Word w of the BITVEC window (R58). -/
  | bitWord (w : Nat)
  /-- A reserved offset, RAZ/WI (R52). -/
  | reserved
  deriving DecidableEq, Repr

/-- One request on the host bus (R46): `req_write` chooses the constructor, `addr` is `req_addr`, `strb` is
`req_wstrb`, `data` is `req_wdata`. -/
inductive BusRequest where
  | read (addr : BitVec 21)
  | write (addr : BitVec 21) (strb : BitVec 8) (data : Word)
  deriving DecidableEq, Repr

/-- The response to one taken request (R46): `rsp_rdata`, which only a read has, and `rsp_err`. -/
structure BusResponse where
  rdata : Option Word
  err : Bool
  deriving DecidableEq, Repr

/-- What the outside world does to the block at one of its turns. -/
inductive HostOp where
  /-- Present one bus request (R46). -/
  | request (q : BusRequest)
  /-- Read STATUS again and again until it reads BUSY = 0 (R79). -/
  | poll
  /-- Assert `rst_n` = 0 for at least one clock edge and release it (R138). -/
  | hardReset
  deriving DecidableEq, Repr

/-- The location names of the host assembly (R77). -/
inductive Loc where
  | reg (r : Reg)
  | msgbuf (w : Nat)
  | bitvec (w : Nat)
  deriving DecidableEq, Repr

/-- A statement of the host assembly: the primitives of R77, the command mnemonics of R78, `poll` (R79), `msg`
(R80) and the pseudo-instructions with operands (R81). -/
inductive HostStmt where
  | wr (l : Loc) (imm : Word)
  | rd (l : Loc)
  | poll
  | command (i : Instr)
  | msg (d : List Byte)
  | configure (m k : Word)
  | index (i : Word)
  | test (j : Word)
  | mark (j : Word)
  | hash (e : EngineSel) (d : List Byte)
  | set (d : List Byte)
  | includes (d : List Byte)
  | clrerr
  deriving DecidableEq, Repr

end Sys2Proof.Machine
end

