-- ==== Sys2Proof/WellFormed.lean ====
section
/-! DEFINITION. The checks: an implementation's parameters (R7), a command (R70, R72), a host bus request (R49), a
location and a statement of the host assembly (R77, R80). -/

namespace Sys2Proof

/-- The constraints of R7 on the capacities. -/
abbrev Params.Legal (p : Params) : Prop :=
  p.mmax % 64 = 0 ∧ 64 ≤ p.mmax ∧ p.mmax ≤ 2 ^ 23 ∧
  1 ≤ p.kmax ∧ p.kmax ≤ 2 ^ 32 - 1 ∧
  p.msgmax % 8 = 0 ∧ 16 ≤ p.msgmax ∧ p.msgmax ≤ 65536

/-- Every command is well formed: the one operand in a command word is the field E, and both of its values name an
engine (R70). -/
def Instr.wellFormed : Instr → Bool
  | .nop => true
  | .configure => true
  | .clear => true
  | .hreset _ => true
  | .hwrite _ => true
  | .index => true
  | .test => true
  | .mark => true
  | .popcnt => true
  | .set => true
  | .includes => true

namespace Machine

/-- An access is well formed iff its offset is a multiple of 8 and, for a write, all byte strobes are set (R49). -/
def BusRequest.wellFormed : BusRequest → Bool
  | .read a => a.toNat % 8 == 0
  | .write a strb _ => a.toNat % 8 == 0 && strb == 0xFF#8

/-- `MSGBUF[w]` and `BITVEC[w]` name a word of their window (R77, R57, R58). -/
def Loc.wellFormed (p : Params) : Loc → Bool
  | .reg _ => true
  | .msgbuf w => decide (w < p.msgmax / 8)
  | .bitvec w => decide (w < p.mmax / 64)

/-- A statement names locations that exist, and loads a message only if it fits the buffer (R80: `n <= MSGMAX`). -/
def HostStmt.wellFormed (p : Params) : HostStmt → Bool
  | .wr l _ => l.wellFormed p
  | .rd l => l.wellFormed p
  | .poll => true
  | .command i => i.wellFormed
  | .msg d => decide (d.length ≤ p.msgmax)
  | .configure _ _ => true
  | .index _ => true
  | .test _ => true
  | .mark _ => true
  | .hash _ d => decide (d.length ≤ p.msgmax)
  | .set d => decide (d.length ≤ p.msgmax)
  | .includes d => decide (d.length ≤ p.msgmax)
  | .clrerr => true

end Machine

end Sys2Proof
end

