-- ==== Sys2Proof/Decode.lean ====
section
/-! DEFINITION. The byte order of a word (R12, R53), the decoder of command words (R73, R74, R76) and the encoder
(R70, R72). -/

namespace Sys2Proof

/-- Byte t of a word on the little-endian host bus: bits [8t+7:8t] (R53). -/
def byteOf (w : Word) (t : Nat) : Byte := w.extractLsb' (8 * t) 8

/-- The little-endian number of at most eight bytes: the sum of byte t times 2^(8t) (R12). -/
def leWord : List Byte → Word
  | [] => 0
  | b :: bs => b.setWidth 64 + leWord bs * 256

/-- The eight bytes of a word in the order of their addresses (R53). -/
def wordBytes (w : Word) : List Byte := (List.range 8).map (byteOf w)

/-- Why a command word is illegal, in the order of R74's list. -/
inductive DecodeError where
  /-- OP is none of the eleven assigned values. -/
  | unassignedOp
  /-- A bit of [63:9] is set. -/
  | reservedBits
  /-- E = 1 with an OP other than 0x10 or 0x11. -/
  | engineBit
  /-- Fewer than eight bytes: no whole command word (R69). -/
  | shortWord
  deriving DecidableEq, Repr

/-- One row of the match and mask table; `build` takes the engine that the field E names. -/
structure CmdRow where
  pat : Word
  mask : Word
  build : EngineSel → Instr

/-- The match and mask table of R73. -/
def cmdTable : List CmdRow :=
  [ { pat := 0x0000000000000000, mask := 0xFFFFFFFFFFFFFFFF, build := fun _ => .nop },
    { pat := 0x0000000000000001, mask := 0xFFFFFFFFFFFFFFFF, build := fun _ => .configure },
    { pat := 0x0000000000000002, mask := 0xFFFFFFFFFFFFFFFF, build := fun _ => .clear },
    { pat := 0x0000000000000010, mask := 0xFFFFFFFFFFFFFEFF, build := fun e => .hreset e },
    { pat := 0x0000000000000011, mask := 0xFFFFFFFFFFFFFEFF, build := fun e => .hwrite e },
    { pat := 0x0000000000000020, mask := 0xFFFFFFFFFFFFFFFF, build := fun _ => .index },
    { pat := 0x0000000000000030, mask := 0xFFFFFFFFFFFFFFFF, build := fun _ => .test },
    { pat := 0x0000000000000031, mask := 0xFFFFFFFFFFFFFFFF, build := fun _ => .mark },
    { pat := 0x0000000000000032, mask := 0xFFFFFFFFFFFFFFFF, build := fun _ => .popcnt },
    { pat := 0x0000000000000040, mask := 0xFFFFFFFFFFFFFFFF, build := fun _ => .set },
    { pat := 0x0000000000000041, mask := 0xFFFFFFFFFFFFFFFF, build := fun _ => .includes } ]

/-- A word w selects a form iff (w and mask) = match (R73). -/
def CmdRow.selects (r : CmdRow) (w : Word) : Bool := w &&& r.mask == r.pat

/-- The engine that the field E selects (R70). -/
def engineOfBit (b : Bool) : EngineSel := if b then .e1 else .e0

/-- The assigned opcode values (R72, R74). -/
def assignedOps : List (BitVec 8) := [0x00, 0x01, 0x02, 0x10, 0x11, 0x20, 0x30, 0x31, 0x32, 0x40, 0x41]

/-- The first ground of R74's list that holds of an illegal word. -/
def illegalReason (w : Word) : DecodeError :=
  if ¬ assignedOps.contains (w.extractLsb' 0 8) then .unassignedOp
  else if w.extractLsb' 9 55 ≠ 0 then .reservedBits
  else .engineBit

/-- The decoder: total on every 64-bit word, independent of every state (R76). An illegal word is rejected by the
name of the ground. -/
def decode (w : Word) : Except DecodeError Instr :=
  match cmdTable.find? (fun r => r.selects w) with
  | some r => .ok (r.build (engineOfBit (w.getLsbD 8)))
  | none => .error (illegalReason w)

/-- The decoder on bytes as the bus carries them: one command is the first eight bytes, least significant first
(R53, R69). -/
def decodeBytes (bs : List Byte) : Except DecodeError (Instr × List Byte) :=
  if bs.length < 8 then .error .shortWord
  else
    match decode (leWord (bs.take 8)) with
    | .ok i => .ok (i, bs.drop 8)
    | .error r => .error r

/-- The opcode of a command (R72). -/
def opcode : Instr → BitVec 8
  | .nop => 0x00
  | .configure => 0x01
  | .clear => 0x02
  | .hreset _ => 0x10
  | .hwrite _ => 0x11
  | .index => 0x20
  | .test => 0x30
  | .mark => 0x31
  | .popcnt => 0x32
  | .set => 0x40
  | .includes => 0x41

/-- The field E of a command: the engine of HRESET and HWRITE, 0 for every other opcode (R70). -/
def engineBit : Instr → Bool
  | .nop => false
  | .configure => false
  | .clear => false
  | .hreset e => decide (e = .e1)
  | .hwrite e => decide (e = .e1)
  | .index => false
  | .test => false
  | .mark => false
  | .popcnt => false
  | .set => false
  | .includes => false

/-- The encoder: the command word, most significant field first: 55 zeros, E, OP (R70). -/
def encode (i : Instr) : Word := (0#55 ++ BitVec.ofBool (engineBit i) ++ opcode i : BitVec (55 + 1 + 8))

/-- The instruction the decoder reads from the word whose low `nbits` bits are those of `w` and whose other bits are
zero, laid out as the bus carries it. A number that does not fit one command word is no command (R69). -/
def decodeTableWord (nbits w : Nat) : Option Instr :=
  if w % 2 ^ nbits < 2 ^ 64 then
    match decodeBytes (wordBytes (BitVec.ofNat 64 (w % 2 ^ nbits))) with
    | .ok (i, _) => some i
    | .error _ => none
  else none

end Sys2Proof
end

