-- ==== Sys2Proof/Machine/State.lean ====
section
/-! DEFINITION. The state of the machine: all of R17 and R18, the sequencer of R42, the host agent of R16, and the
model's own counters for the values the spec leaves open. Reset: R45. -/

namespace Sys2Proof.Machine

/-- The values STATUS.ERRCODE takes (R122); 0x06 to 0xFF are never produced. -/
inductive ErrCode where
  | ok
  | illegalCmd
  | invalidParam
  | notConfigured
  | range
  | hashWrite
  deriving DecidableEq, Repr

/-- The stored fields of STATUS (R24). BUSY is the sequencer's `pending` (R42) and ERR is ERRCODE ≠ 0 (R27): neither
is stored a second time. The reserved bits read 0 (R52). -/
structure Status where
  configured : Bool
  sticky : Bool
  ovr : Bool
  errcode : ErrCode
  deriving DecidableEq, Repr

/-- The two words of one hash engine (R38). -/
structure EngineWords where
  h0 : Word
  h1 : Word
  deriving DecidableEq, Repr

/-- Bytes by position, in one canonical form: positions strictly rising. A position that is not listed holds no
written byte. -/
abbrev Memory := List Host.Cell

/-- The canonical form of a memory. No entry can equal what an unlisted position holds, which is no written byte. -/
abbrev Memory.wf (m : Memory) : Prop := m.Pairwise (fun x y => x.1 < y.1)

/-- The bit-vector storage (R39): the positions of the cells that were set to 1, strictly rising, and whether the
storage was cleared since reset. A cell that is not listed is 0 once `cleared`, and unspecified before that (R45). -/
structure CellArray where
  cleared : Bool
  ones : List Nat
  deriving DecidableEq, Repr

/-- The canonical form of the bit-vector storage. -/
abbrev CellArray.wf (c : CellArray) : Prop := c.ones.Pairwise (fun x y => x < y)

/-- The state. Registers of R18 that are constants (ID) or are computed from other state (CAP_MMAX, CAP_KMAX,
CAP_MSGMAX, the engine words' registers) are read through `State.readReg`. -/
structure State where
  /-- The parameters of this block (R7); no step changes them. -/
  params : Params
  /-- CMD: the last accepted command word (R23). -/
  cmd : Word
  /-- STATUS (R24). -/
  status : Status
  /-- ARG0 (R30). -/
  arg0 : Word
  /-- ARG1 (R30). -/
  arg1 : Word
  /-- RESULT (R31). -/
  result : Word
  /-- M (R32). -/
  m : Word
  /-- K (R33). -/
  k : Word
  /-- SETBITS (R34). -/
  setbits : Word
  /-- MSGLEN (R35). -/
  msglen : Word
  /-- SEED0 (R36). -/
  seed0 : Word
  /-- SEED1 (R36). -/
  seed1 : Word
  /-- E[0] (R37, R38). -/
  eng0 : EngineWords
  /-- E[1] (R37, R38). -/
  eng1 : EngineWords
  /-- The bit-vector storage (R39). -/
  cells : CellArray
  /-- The message-buffer bytes written since reset (R41). -/
  msgbuf : Memory
  /-- The sequencer: the accepted command word, or none (R42). STATUS.BUSY is 1 iff it holds one. -/
  pending : Option Word
  /-- The model's own: turns the host still gets before the pending command completes (R150). -/
  wait : Nat
  /-- The model's own: how many hardware resets came before; picks the draws of R139 and R45. -/
  epoch : Nat
  /-- The model's own: how many fresh draws were taken; picks the next one (R64, R150). -/
  draws : Nat
  /-- The host agent: what it does next, first first (R16, R46). -/
  todo : List HostOp
  /-- The host agent: the responses it was given, oldest first (R46). -/
  responses : List BusResponse
  deriving DecidableEq, Repr

/-- What stops the machine: nothing. Every error of the block is reported in STATUS (R127) or in a bus response
(R129) and the block goes on, so this type has no constructor. -/
inductive Fault where
  deriving DecidableEq, Repr

/-- Why a step has no meaning. -/
inductive Refusal where
  /-- A command of the opcode table that has no meaning yet; raised only by an arm of `exec` that says so (safe). No
  arm does. -/
  | notModelled (mnemonic : String)
  deriving DecidableEq, Repr

/-- The state of R45 for a block with parameters `p`, after `epoch` earlier resets and `draws` draws, with a host
that has nothing to do. -/
def State.resetWith (p : Params) (epoch draws : Nat) : State where
  params := p
  cmd := 0
  status := { configured := false, sticky := false, ovr := false, errcode := .ok }
  arg0 := 0
  arg1 := 0
  result := 0
  m := 0
  k := 0
  setbits := 0
  msglen := 0
  seed0 := 0
  seed1 := 0x00000000000000FA
  eng0 := { h0 := 0, h1 := 0 }
  eng1 := { h0 := 0x00000000000000FA, h1 := 0x00000000000000FA }
  cells := { cleared := false, ones := [] }
  msgbuf := []
  pending := none
  wait := 0
  epoch := epoch
  draws := draws
  todo := []
  responses := []

/-- The machine right after reset (R45, R138), with the reference parameters (R7). -/
def State.reset : State := State.resetWith Params.reference 0 0

end Sys2Proof.Machine
end

