-- ==== Sys2Proof/Machine/Flags.lean ====
section
/-! DEFINITION. STATUS: its fields, its value as a register, its change at a completion, and its RW1C fields (R24 to
R29, R122). -/

namespace Sys2Proof.Machine

/-- The numeric error codes (R122). -/
def ErrCode.code : ErrCode → BitVec 8
  | .ok => 0x00
  | .illegalCmd => 0x01
  | .invalidParam => 0x02
  | .notConfigured => 0x03
  | .range => 0x04
  | .hashWrite => 0x05

/-- STATUS.BUSY (R24, R42). -/
def State.busy (s : State) : Bool := s.pending.isSome

/-- STATUS.ERR (R24, R27). -/
def Status.err (st : Status) : Bool := decide (st.errcode ≠ .ok)

/-- STATUS as the host reads it, most significant field first (R24). -/
def State.statusWord (s : State) : Word :=
  (0#48 ++ s.status.errcode.code ++ 0#3 ++ BitVec.ofBool s.status.ovr ++ BitVec.ofBool s.status.sticky ++
    BitVec.ofBool s.status.err ++ BitVec.ofBool s.status.configured ++ BitVec.ofBool s.busy :
    BitVec (48 + 8 + 3 + 1 + 1 + 1 + 1 + 1))

/-- STATUS at a completion with code `c`: ERRCODE takes it, and STICKY is set iff it is not 0 (R27, R28). -/
def Status.complete (c : ErrCode) (st : Status) : Status :=
  { st with errcode := c, sticky := st.sticky || decide (c ≠ .ok) }

/-- A host write to STATUS: bit 3 written 1 clears STICKY, bit 4 written 1 clears OVR, and nothing else (R24). -/
def Status.writeOneToClear (v : Word) (st : Status) : Status :=
  { st with sticky := st.sticky && !v.getLsbD 3, ovr := st.ovr && !v.getLsbD 4 }

/-- A host write is dropped because BUSY = 1 (R29, R65). -/
def Status.dropWrite (st : Status) : Status := { st with ovr := true }

end Sys2Proof.Machine
end

