-- ==== Sys2Proof/Machine/Ops.lean ====
section
/-! DEFINITION. The named operations on the message buffer, the bit-vector cells and the engines, and the two ways a
command ends: with success and with an error (R126). -/

namespace Sys2Proof.Machine

/-- The written byte at a position. -/
def Memory.get? : Memory → Nat → Option Byte
  | [], _ => none
  | (b, v) :: rest, a => if a = b then some v else Memory.get? rest a

/-- Write one byte; the canonical form is kept. -/
def Memory.write : Memory → Nat → Byte → Memory
  | [], a, v => [(a, v)]
  | (b, w) :: rest, a, v =>
    if a < b then (a, v) :: (b, w) :: rest
    else if a = b then (a, v) :: rest
    else (b, w) :: Memory.write rest a v

/-- Write the eight bytes of a word from position `a` on, least significant first (R53, R57). -/
def Memory.writeWord (mem : Memory) (a : Nat) (v : Word) : Memory :=
  (List.range 8).foldl (fun acc t => acc.write (a + t) (byteOf v t)) mem

/-- `MsgByte(j)` (R11, R41): the byte written last, or, until the first write after reset, the draw (R139). -/
def State.msgByte (s : State) (j : Nat) : Byte := (s.msgbuf.get? j).getD (Config.msgByte s.epoch j)

/-- MSGBUF word w: the bytes 8w to 8w+7, little-endian (R57). -/
def State.msgWord (s : State) (w : Nat) : Word := leWord ((List.range 8).map (fun t => s.msgByte (8 * w + t)))

/-- Store MSGBUF word w (R57). -/
def State.writeMsgWord (s : State) (w : Nat) (v : Word) : State :=
  { s with msgbuf := s.msgbuf.writeWord (8 * w) v }

/-- `Bit(j)` (R11, R39): 1 if set; otherwise 0, or unspecified while the storage was not cleared since reset (R45). -/
def State.bit (s : State) (j : Nat) : Bool :=
  s.cells.ones.contains j || (!s.cells.cleared && Config.cell s.epoch j)

/-- Add a position to the strictly rising list of set cells. -/
def insertCell : List Nat → Nat → List Nat
  | [], j => [j]
  | x :: xs, j => if j < x then j :: x :: xs else if j = x then x :: xs else x :: insertCell xs j

/-- `Bit(j) <- 1` (R11). -/
def State.setCell (s : State) (j : Nat) : State :=
  { s with cells := { s.cells with ones := insertCell s.cells.ones j } }

/-- Clear every cell and SETBITS: the whole-structure reset of CLEAR and CONFIGURE (R102, R112). -/
def State.clearCells (s : State) : State :=
  { s with cells := { cleared := true, ones := [] }, setbits := 0 }

/-- The cell-marking primitive (R103): the state after it and the value it returns. -/
def markCell (j : Nat) (s : State) : State × Word :=
  if s.bit j then (s, 0)
  else ({ s.setCell j with setbits := s.setbits + 1 }, 1)

/-- Mark cells in order, adding up the values returned: the loop of SET (R114). -/
def markCells : List Nat → State → State × Word
  | [], s => (s, 0)
  | j :: js, s =>
    let (s1, new) := markCell j s
    let (s2, rest) := markCells js s1
    (s2, new + rest)

/-- The number of set cells among the first `n` (R107). -/
def State.countCells (s : State) : Nat → Nat
  | 0 => 0
  | n + 1 => s.countCells n + (s.bit n).toNat

/-- BITVEC word w: bit t is `Bit(64w + t)` below M and 0 otherwise (R58). -/
def State.bitWord (s : State) (w : Nat) : Word :=
  (List.range 64).foldr
    (fun t acc => if s.bit (64 * w + t) && decide (64 * w + t < s.m.toNat) then acc ||| BitVec.twoPow 64 t else acc) 0

/-- The words of engine e (R11, R38). -/
def State.engine (s : State) : EngineSel → EngineWords
  | .e0 => s.eng0
  | .e1 => s.eng1

/-- Replace the words of engine e. -/
def State.setEngine (s : State) (e : EngineSel) (h : EngineWords) : State :=
  match e with
  | .e0 => { s with eng0 := h }
  | .e1 => { s with eng1 := h }

/-- `R[RESULT] <- r` (R11, R31). -/
def State.setResult (s : State) (r : Word) : State := { s with result := r }

/-- A command ends with success: ERRCODE takes OK and BUSY becomes 0 (R27, R63). -/
def State.succeed (s : State) : State :=
  { s with status := s.status.complete .ok, pending := none }

/-- `raise Error(c)` (R126), the block's one way to report an error: ERRCODE, ERR, STICKY and BUSY, and nothing else.
There is no trap entry (R127) and no return (R128). -/
def State.raise (s : State) (c : ErrCode) : State :=
  { s with status := s.status.complete c, pending := none }

/-- The completion of a command that started in `s`: a successful effect is kept whole, and an error keeps none of
it (R63, R126). -/
def conclude (s : State) (effect : Except ErrCode State) : Host.Outcome State Fault Refusal :=
  match effect with
  | .ok t => .next t.succeed
  | .error c => .next (s.raise c)

/-- The completion of an illegal command word (R123). -/
def concludeIllegal (s : State) : Host.Outcome State Fault Refusal := conclude s (.error .illegalCmd)

end Sys2Proof.Machine
end

