-- ==== Sys2Proof/Machine/Operands.lean ====
section
/-! DEFINITION. The fixed operands of the commands (R71): the message (R59), the seed of an engine (R36) and the
checks on them. -/

namespace Sys2Proof.Machine

/-- The seed register of engine e (R36). -/
def State.seed (s : State) : EngineSel → Word
  | .e0 => s.seed0
  | .e1 => s.seed1

/-- An engine reset: both words of engine e take its seed (R36, R88). -/
def State.seedEngine (s : State) (e : EngineSel) : State :=
  s.setEngine e { h0 := s.seed e, h1 := s.seed e }

/-- MSGLEN > MSGMAX, the cause of HASH_WRITE (R35, R122). -/
def State.messageTooLong (s : State) : Bool := decide (s.params.msgmax < s.msglen.toNat)

/-- The message: the bytes 0 to MSGLEN - 1 of the buffer (R59). -/
def State.message (s : State) : List Byte := (List.range s.msglen.toNat).map s.msgByte

/-- The operands that CONFIGURE refuses (R112). -/
def State.badGeometry (s : State) : Bool :=
  decide (s.arg0 = 0) || decide (s.params.mmax < s.arg0.toNat) ||
    decide (s.arg1 = 0) || decide (s.params.kmax < s.arg1.toNat)

end Sys2Proof.Machine
end

