-- ==== Sys2Proof/Machine/Bus.lean ====
section
/-! DEFINITION. The host interface: the register map (R18), the address map (R48), reads and writes of the aperture
(R49 to R58, R64, R65), hardware reset (R138) and one turn of the host agent (R16, R79). -/

namespace Sys2Proof.Machine

/-- The byte offset of each register (R18). -/
def Reg.offset : Reg → Nat
  | .id => 0x000
  | .capMmax => 0x008
  | .capKmax => 0x010
  | .capMsgmax => 0x018
  | .cmd => 0x020
  | .status => 0x028
  | .arg0 => 0x030
  | .arg1 => 0x038
  | .result => 0x040
  | .m => 0x048
  | .k => 0x050
  | .setbits => 0x058
  | .msglen => 0x060
  | .seed0 => 0x068
  | .seed1 => 0x070
  | .e0h0 => 0x078
  | .e0h1 => 0x080
  | .e1h0 => 0x088
  | .e1h1 => 0x090

/-- All registers, in the order of the map (R18). -/
def allRegs : List Reg :=
  [.id, .capMmax, .capKmax, .capMsgmax, .cmd, .status, .arg0, .arg1, .result, .m, .k, .setbits, .msglen, .seed0,
   .seed1, .e0h0, .e0h1, .e1h0, .e1h1]

/-- The offset of the MSGBUF window (R48). -/
def msgbufOffset : Nat := 0x010000

/-- The offset of the BITVEC window (R48). -/
def bitvecOffset : Nat := 0x100000

/-- What the aperture holds at offset o, a multiple of 8 (R48). -/
def regionAt (p : Params) (o : Nat) : Region :=
  if msgbufOffset ≤ o ∧ o < msgbufOffset + p.msgmax then .msgWord ((o - msgbufOffset) / 8)
  else if bitvecOffset ≤ o ∧ o < bitvecOffset + p.mmax / 8 then .bitWord ((o - bitvecOffset) / 8)
  else
    match allRegs.find? (fun r => r.offset == o) with
    | some r => .reg r
    | none => .reserved

/-- The byte address on the host bus of an offset in the aperture (R47). -/
def busAddress (a : BitVec 21) : Nat := Config.base + a.toNat

/-- The constant of the ID register (R19). -/
def idWord : Word := 0x00000001474C4F4D

/-- The value a register holds (R18 to R37). -/
def State.readReg (s : State) : Reg → Word
  | .id => idWord
  | .capMmax => BitVec.ofNat 64 s.params.mmax
  | .capKmax => BitVec.ofNat 64 s.params.kmax
  | .capMsgmax => BitVec.ofNat 64 s.params.msgmax
  | .cmd => s.cmd
  | .status => s.statusWord
  | .arg0 => s.arg0
  | .arg1 => s.arg1
  | .result => s.result
  | .m => s.m
  | .k => s.k
  | .setbits => s.setbits
  | .msglen => s.msglen
  | .seed0 => s.seed0
  | .seed1 => s.seed1
  | .e0h0 => s.eng0.h0
  | .e0h1 => s.eng0.h1
  | .e1h0 => s.eng1.h0
  | .e1h1 => s.eng1.h1

/-- A write to CMD while BUSY = 0 accepts the word, legal or not (R23); the command's latency is drawn (R150). -/
def State.accept (s : State) (w : Word) : State :=
  { s with cmd := w, pending := some w, wait := Config.latency s.draws, draws := s.draws + 1 }

/-- A write to a register while BUSY = 0: it stores in a RW register, accepts in CMD, clears in STATUS, and is ignored
by a read-only register (R18, R23, R24). -/
def State.writeReg (s : State) (r : Reg) (v : Word) : State :=
  match r with
  | .id => s
  | .capMmax => s
  | .capKmax => s
  | .capMsgmax => s
  | .cmd => s.accept v
  | .status => { s with status := s.status.writeOneToClear v }
  | .arg0 => { s with arg0 := v }
  | .arg1 => { s with arg1 := v }
  | .result => s
  | .m => s
  | .k => s
  | .setbits => s
  | .msglen => { s with msglen := v }
  | .seed0 => { s with seed0 := v }
  | .seed1 => { s with seed1 := v }
  | .e0h0 => s
  | .e0h1 => s
  | .e1h0 => s
  | .e1h1 => s

/-- The registers whose reads are volatile while BUSY = 1 (R64). -/
def Reg.volatile : Reg → Bool
  | .id => false
  | .capMmax => false
  | .capKmax => false
  | .capMsgmax => false
  | .cmd => false
  | .status => false
  | .arg0 => false
  | .arg1 => false
  | .result => true
  | .m => true
  | .k => true
  | .setbits => true
  | .msglen => false
  | .seed0 => false
  | .seed1 => false
  | .e0h0 => true
  | .e0h1 => true
  | .e1h0 => true
  | .e1h1 => true

/-- The volatile locations (R64). -/
def Region.volatile : Region → Bool
  | .reg r => r.volatile
  | .msgWord _ => false
  | .bitWord _ => true
  | .reserved => false

/-- The value a location holds (R18, R52, R57, R58). -/
def State.peek (s : State) : Region → Word
  | .reg r => s.readReg r
  | .msgWord w => s.msgWord w
  | .bitWord w => s.bitWord w
  | .reserved => 0

/-- The byte at an aperture offset, as the little-endian bus carries it (R53). -/
def State.peekByte (s : State) (o : Nat) : Byte := byteOf (s.peek (regionAt s.params (o / 8 * 8))) (o % 8)

/-- A write to a location while BUSY = 0 (R52, R57, R58). -/
def State.poke (s : State) (r : Region) (v : Word) : State :=
  match r with
  | .reg r => s.writeReg r v
  | .msgWord w => s.writeMsgWord w v
  | .bitWord _ => s
  | .reserved => s

/-- `MemRead(o, 8)`: the value read and the state after. While BUSY = 1 a volatile location reads as a fresh draw
(R64); otherwise no read has a side effect (R56). -/
def memRead (o : BitVec 21) (s : State) : Word × State :=
  let r := regionAt s.params o.toNat
  if s.busy && r.volatile then (Config.volatileRead s.draws, { s with draws := s.draws + 1 })
  else (s.peek r, s)

/-- `MemWrite(o, 8, v)`: dropped while BUSY = 1, whatever the offset (R65). -/
def memWrite (o : BitVec 21) (v : Word) (s : State) : State :=
  if s.busy then { s with status := s.status.dropWrite }
  else s.poke (regionAt s.params o.toNat) v

/-- Give the host one response (R46). -/
def State.respond (s : State) (r : BusResponse) : State := { s with responses := s.responses ++ [r] }

/-- The response to a request that is not well formed: `rsp_err` = 1, and a read returns 0 (R50). -/
def busFault : BusRequest → BusResponse
  | .read _ => { rdata := some 0, err := true }
  | .write _ _ _ => { rdata := none, err := true }

/-- Take one request and answer it (R46, R49, R50). -/
def serve (q : BusRequest) (s : State) : State :=
  if q.wellFormed then
    match q with
    | .read o =>
      let (v, t) := memRead o s
      t.respond { rdata := some v, err := false }
    | .write o _ v => (memWrite o v s).respond { rdata := none, err := false }
  else s.respond (busFault q)

/-- The offset of STATUS as a request carries it. -/
def statusAddr : BitVec 21 := BitVec.ofNat 21 Reg.status.offset

/-- Hardware reset (R138): the reset state for the same block. A pending command is abandoned, and the unspecified
bytes and cells are drawn anew (R139). What the host still has to do and what it was answered are the host's. -/
def hardReset (s : State) : State :=
  { State.resetWith s.params (s.epoch + 1) s.draws with todo := s.todo, responses := s.responses }

/-- One turn of the host agent (R16): the next thing it does, or nothing. A `poll` reads STATUS once and is done when
that read shows BUSY = 0 (R79). -/
def hostTurn (s : State) : State :=
  match s.todo with
  | [] => s
  | .request q :: rest => serve q { s with todo := rest }
  | .poll :: rest => serve (.read statusAddr) (if s.busy then s else { s with todo := rest })
  | .hardReset :: rest => hardReset { s with todo := rest }

end Sys2Proof.Machine
end

