-- ==== Sys2Proof/Machine/BitVector.lean ====
section
/-! DEFINITION. The bit-vector family: CLEAR (R102), TEST (R104), MARK (R105) and POPCNT (R107). -/

namespace Sys2Proof.Machine

/-- The effect of CLEAR (R102). -/
def clearEffect (s : State) : Except ErrCode State :=
  if ¬ s.status.configured then .error .notConfigured
  else .ok s.clearCells

/-- CLEAR (R102). -/
def execClear (s : State) : Host.Outcome State Fault Refusal := conclude s (clearEffect s)

/-- The effect of TEST (R104): RESULT takes the cell ARG0. -/
def testEffect (s : State) : Except ErrCode State :=
  if ¬ s.status.configured then .error .notConfigured
  else if s.m.toNat ≤ s.arg0.toNat then .error .range
  else .ok (s.setResult ((BitVec.ofBool (s.bit s.arg0.toNat)).setWidth 64))

/-- TEST (R104). -/
def execTest (s : State) : Host.Outcome State Fault Refusal := conclude s (testEffect s)

/-- The effect of MARK (R105): the cell ARG0 is set, and RESULT is 1 if it was clear and 0 if it was set (R31, R103).
R66's words "returns the old value" are set aside by log entry 19. -/
def markEffect (s : State) : Except ErrCode State :=
  if ¬ s.status.configured then .error .notConfigured
  else if s.m.toNat ≤ s.arg0.toNat then .error .range
  else
    let (t, new) := markCell s.arg0.toNat s
    .ok (t.setResult new)

/-- MARK (R105). -/
def execMark (s : State) : Host.Outcome State Fault Refusal := conclude s (markEffect s)

/-- The effect of POPCNT (R107): RESULT takes the number of set cells below M, counted from the cells. -/
def popcntEffect (s : State) : Except ErrCode State :=
  .ok (s.setResult (BitVec.ofNat 64 (s.countCells s.m.toNat)))

/-- POPCNT (R107). -/
def execPopcnt (s : State) : Host.Outcome State Fault Refusal := conclude s (popcntEffect s)

end Sys2Proof.Machine
end

