-- ==== Sys2Proof/Machine/Pipeline.lean ====
section
/-! DEFINITION. The MurmurHash3 128-bit pipeline as pure functions (R82 to R87, R91) and the double-hash index function
(R97, R101). -/

namespace Sys2Proof.Machine

/-- `rotl64(x, r)` for 0 < r < 64 (R10). -/
def rotl64 (x : Word) (r : Nat) : Word := (x <<< r) ||| (x >>> (64 - r))

/-- `LE64(d, p)` (R12). -/
def le64 (d : List Byte) (p : Nat) : Word := leWord ((d.drop p).take 8)

/-- C1 (R82). -/
def c1 : Word := 0x87c37b91114253d5
/-- C2 (R82). -/
def c2 : Word := 0x4cf5ad432745937f
/-- N1 (R82). -/
def n1 : Word := 0x52dce729
/-- N2 (R82). -/
def n2 : Word := 0x38495ab5
/-- F1 (R82). -/
def f1 : Word := 0xff51afd7ed558ccd
/-- F2 (R82). -/
def f2 : Word := 0xc4ceb9fe1a85ec53

/-- `mixK1` (R83). -/
def mixK1 (k : Word) : Word := rotl64 (k * c1) 31 * c2

/-- `mixK2` (R83). -/
def mixK2 (k : Word) : Word := rotl64 (k * c2) 33 * c1

/-- `blockStep` (R84). The h1 update reads the new h0. -/
def blockStep (h : EngineWords) (k1 k2 : Word) : EngineWords :=
  let a := (rotl64 (h.h0 ^^^ mixK1 k1) 27 + h.h1) * 5 + n1
  let b := (rotl64 (h.h1 ^^^ mixK2 k2) 31 + a) * 5 + n2
  { h0 := a, h1 := b }

/-- `fmix64` (R85). -/
def fmix64 (x : Word) : Word :=
  let x := x ^^^ (x >>> 33)
  let x := x * f1
  let x := x ^^^ (x >>> 33)
  let x := x * f2
  x ^^^ (x >>> 33)

/-- The block loop of HWRITE (R89): the blocks b = 0 .. (n div 16) - 1, in that order, block b at 16b and 16b + 8. R54's
last sentence prints 32b and 32b + 8; R89 and the spec's digests decide (log entry 15). -/
def blockLoop (h : EngineWords) (d : List Byte) : EngineWords :=
  (List.range (d.length / 16)).foldl (fun h b => blockStep h (le64 d (16 * b)) (le64 d (16 * b + 8))) h

/-- The 0 to 15 bytes after the last full block (R15, R86). -/
def tailBytes (d : List Byte) : List Byte := d.drop (16 * (d.length / 16))

/-- `tailStep` (R86). -/
def tailStep (h : EngineWords) (d : List Byte) : EngineWords :=
  let tail := tailBytes d
  let k1 := leWord (tail.take 8)
  let k2 := leWord (tail.drop 8)
  { h0 := if 0 < tail.length then h.h0 ^^^ mixK1 k1 else h.h0,
    h1 := if 8 < tail.length then h.h1 ^^^ mixK2 k2 else h.h1 }

/-- `finalize` (R87). -/
def finalize (h : EngineWords) (n : Nat) : EngineWords :=
  let a := h.h0 ^^^ BitVec.ofNat 64 n
  let b := h.h1 ^^^ BitVec.ofNat 64 n
  let a := a + b
  let b := b + a
  let a := fmix64 a
  let b := fmix64 b
  let a := a + b
  let b := b + a
  { h0 := a, h1 := b }

/-- `MM3(h0, h1, d)`: one whole digest (R89, R91). -/
def mm3 (h : EngineWords) (d : List Byte) : EngineWords :=
  finalize (tailStep (blockLoop h d) d) d.length

/-- The digest of d under seed s (R91). -/
def digest (seed : Word) (d : List Byte) : EngineWords := mm3 { h0 := seed, h1 := seed } d

/-- The remainder of R10. The spec never evaluates it with m = 0 (R99), so there it is a free value. -/
def modWord (x m : Word) : Word := if m = 0 then Config.modZero x else x % m

/-- The index function (R97). -/
def idx (a b i m : Word) : Word := modWord (a + i * b + i * i * i) m

/-- The position sequence of base hashes a and b: pos(0), …, pos(k - 1), repeats kept (R101). -/
def positions (a b k m : Word) : List Nat :=
  (List.range k.toNat).map (fun i => (idx a b (BitVec.ofNat 64 i) m).toNat)

end Sys2Proof.Machine
end

