-- ==== Sys2Proof/Machine/Filter.lean ====
section
/-! DEFINITION. The filter family: NOP (R110), CONFIGURE (R112), SET (R114) and INCLUDES (R116). -/

namespace Sys2Proof.Machine

/-- NOP (R110): nothing but the completion's STATUS. -/
def execNop (s : State) : Host.Outcome State Fault Refusal := conclude s (.ok s)

/-- The successful part of CONFIGURE (R112): a new, empty filter of length ARG0 with ARG1 positions, both engines at
their seeds, CONFIGURED = 1. -/
def configured (s : State) : State :=
  let t := ({ s with m := s.arg0, k := s.arg1 }.clearCells.seedEngine .e0).seedEngine .e1
  { t with status := { t.status with configured := true } }

/-- The effect of CONFIGURE (R112). -/
def configureEffect (s : State) : Except ErrCode State :=
  if s.badGeometry then .error .invalidParam
  else .ok (configured s)

/-- CONFIGURE (R112). -/
def execConfigure (s : State) : Host.Outcome State Fault Refusal := conclude s (configureEffect s)

/-- Both engines digest the message, each from its seed: the common start of SET and INCLUDES (R114, R116, R100). -/
def digestBoth (s : State) : State :=
  (s.setEngine .e0 (digest s.seed0 s.message)).setEngine .e1 (digest s.seed1 s.message)

/-- The positions of the base hashes in the engines (R100, R101). -/
def State.enginePositions (s : State) : List Nat := positions s.eng0.h0 s.eng1.h0 s.k s.m

/-- The effect of SET (R114): mark the K positions of the message; RESULT takes the number of new cells. -/
def setEffect (s : State) : Except ErrCode State :=
  if ¬ s.status.configured then .error .notConfigured
  else if s.messageTooLong then .error .hashWrite
  else
    let hashed := digestBoth s
    let (t, new) := markCells hashed.enginePositions hashed
    .ok (t.setResult new)

/-- SET (R114). -/
def execSet (s : State) : Host.Outcome State Fault Refusal := conclude s (setEffect s)

/-- The effect of INCLUDES (R116): RESULT says whether all K positions of the message are set. Where a core stops
visiting positions changes nothing (R117). -/
def includesEffect (s : State) : Except ErrCode State :=
  if ¬ s.status.configured then .error .notConfigured
  else if s.messageTooLong then .error .hashWrite
  else
    let hashed := digestBoth s
    .ok (hashed.setResult (if hashed.enginePositions.all hashed.bit then 1 else 0))

/-- INCLUDES (R116). -/
def execIncludes (s : State) : Host.Outcome State Fault Refusal := conclude s (includesEffect s)

end Sys2Proof.Machine
end

