-- ==== Sys2Proof/Machine/Hash.lean ====
section
/-! DEFINITION. The hash engine family: HRESET (R88) and HWRITE (R89, R90). -/

namespace Sys2Proof.Machine

/-- HRESET e (R88): both words of engine e take SEEDe. -/
def execHreset (e : EngineSel) (s : State) : Host.Outcome State Fault Refusal :=
  conclude s (.ok (s.seedEngine e))

/-- The effect of HWRITE e (R89): one whole digest of the message, from whatever the engine holds (R90). -/
def hwriteEffect (e : EngineSel) (s : State) : Except ErrCode State :=
  if s.messageTooLong then .error .hashWrite
  else .ok (s.setEngine e (mm3 (s.engine e) s.message))

/-- HWRITE e (R89). -/
def execHwrite (e : EngineSel) (s : State) : Host.Outcome State Fault Refusal :=
  conclude s (hwriteEffect e s)

end Sys2Proof.Machine
end

