-- ==== Sys2Proof/Machine/IndexGen.lean ====
section
/-! DEFINITION. The double-hash index family: INDEX (R98). -/

namespace Sys2Proof.Machine

/-- The effect of INDEX (R98): RESULT takes the position of iteration ARG0 from the engine words as they stand. -/
def indexEffect (s : State) : Except ErrCode State :=
  if ¬ s.status.configured then .error .notConfigured
  else if s.k.toNat ≤ s.arg0.toNat then .error .range
  else .ok (s.setResult (idx s.eng0.h0 s.eng1.h0 s.arg0 s.m))

/-- INDEX (R98). -/
def execIndex (s : State) : Host.Outcome State Fault Refusal := conclude s (indexEffect s)

end Sys2Proof.Machine
end

