-- ==== Sys2Proof/Machine/Dispatch.lean ====
section
/-! DEFINITION. The completion step of every command (R63), one arm per row of spec/opcode_table.json. -/

namespace Sys2Proof.Machine

def exec (i : Instr) (s : State) : Host.Outcome State Fault Refusal :=
  match i with
  | .nop => Sys2Proof.Machine.execNop s
  | .configure => Sys2Proof.Machine.execConfigure s
  | .clear => Sys2Proof.Machine.execClear s
  | .hreset e => Sys2Proof.Machine.execHreset e s
  | .hwrite e => Sys2Proof.Machine.execHwrite e s
  | .index => Sys2Proof.Machine.execIndex s
  | .test => Sys2Proof.Machine.execTest s
  | .mark => Sys2Proof.Machine.execMark s
  | .popcnt => Sys2Proof.Machine.execPopcnt s
  | .set => Sys2Proof.Machine.execSet s
  | .includes => Sys2Proof.Machine.execIncludes s

end Sys2Proof.Machine
end

