-- ==== Sys2Proof/Machine/Step.lean ====
section
/-! DEFINITION. One step of the machine: the core completes the pending command when its latency has passed, and
otherwise the host has a turn (R16, R63, R150). -/

namespace Sys2Proof.Machine

/-- The core completes the accepted word w in one atomic step (R63): the command it decodes to, or ILLEGAL_CMD
(R123). -/
def completeWord (w : Word) (s : State) : Host.Outcome State Fault Refusal :=
  match decode w with
  | .ok i => exec i s
  | .error _ => concludeIllegal s

/-- One step. -/
def step (s : State) : Host.Outcome State Fault Refusal :=
  match s.pending with
  | none => .next (hostTurn s)
  | some w =>
    match s.wait with
    | 0 => completeWord w s
    | n + 1 => .next (hostTurn { s with wait := n })

/-- The state in which the command word has just been accepted (R23) and its latency is over, so that the next step
completes it. A number that does not fit one word is cut to 64 bits. -/
def State.withFetchWord (s : State) (nbits w : Nat) : State :=
  let word := BitVec.ofNat 64 (w % 2 ^ nbits)
  { s with cmd := word, pending := some word, wait := 0 }

end Sys2Proof.Machine
end

