-- ==== Sys2Proof/Machine/HostAsm.lean ====
section
/-! DEFINITION. The host assembly: where a location name points (R77), what each statement expands to (R77 to R81),
and the host's serialization of a digest (R55). -/

namespace Sys2Proof.Machine

/-- The aperture offset of a location name (R77). -/
def Loc.offset : Loc → Nat
  | .reg r => r.offset
  | .msgbuf w => msgbufOffset + 8 * w
  | .bitvec w => bitvecOffset + 8 * w

/-- `wr LOC, IMM` is `MemWrite(offset(LOC), 8, IMM)` (R77), a full-strobe write (R49). -/
def writeOp (l : Loc) (v : Word) : HostOp := .request (.write (BitVec.ofNat 21 l.offset) 0xFF v)

/-- `rd LOC` is `MemRead(offset(LOC), 8)` (R77). -/
def readOp (l : Loc) : HostOp := .request (.read (BitVec.ofNat 21 l.offset))

/-- A command statement: `wr CMD, <word>`, then `poll` (R78). -/
def commandOps (i : Instr) : List HostOp := [writeOp (.reg .cmd) (encode i), .poll]

/-- `msg`: the message in zero-padded little-endian words, then its length (R80). -/
def msgOps (d : List Byte) : List HostOp :=
  (List.range ((d.length + 7) / 8)).map (fun w => writeOp (.msgbuf w) (le64 d (8 * w))) ++
    [writeOp (.reg .msglen) (BitVec.ofNat 64 d.length)]

/-- What a statement expands to (R77 to R81). -/
def HostStmt.expand : HostStmt → List HostOp
  | .wr l v => [writeOp l v]
  | .rd l => [readOp l]
  | .poll => [.poll]
  | .command i => commandOps i
  | .msg d => msgOps d
  | .configure m k => [writeOp (.reg .arg0) m, writeOp (.reg .arg1) k] ++ commandOps .configure
  | .index i => writeOp (.reg .arg0) i :: commandOps .index
  | .test j => writeOp (.reg .arg0) j :: commandOps .test
  | .mark j => writeOp (.reg .arg0) j :: commandOps .mark
  | .hash e d => msgOps d ++ commandOps (.hreset e) ++ commandOps (.hwrite e)
  | .set d => msgOps d ++ commandOps .set
  | .includes d => msgOps d ++ commandOps .includes
  | .clrerr => [writeOp (.reg .status) 0x18]

/-- A host program as what the host does, in order (R77). -/
def expandProgram (p : List HostStmt) : List HostOp := p.flatMap HostStmt.expand

/-- The host's 16-byte serialization of a digest: h0, then h1, each most significant byte first (R55). -/
def serializeDigest (h : EngineWords) : List Byte := (wordBytes h.h0).reverse ++ (wordBytes h.h1).reverse

end Sys2Proof.Machine
end

