-- ==== Sys2Proof/Safety.lean ====
section
/-! DEFINITION. What claims speak of: the invariant of the block (R40), which agent moves next, the runs that keep a
filter (R118), and the end of a host program (R153). -/

namespace Sys2Proof.Machine

/-- The invariant: legal parameters (R7), canonical memories, and R40. -/
structure Inv (s : State) : Prop where
  /-- The parameters meet R7. -/
  legal : s.params.Legal
  /-- The message buffer is in canonical form. -/
  msgbufWf : s.msgbuf.wf
  /-- The message buffer has MSGMAX bytes (R41). -/
  msgbufBound : ∀ c ∈ s.msgbuf, c.1 < s.params.msgmax
  /-- The bit-vector storage is in canonical form. -/
  cellsWf : s.cells.wf
  /-- Only cells below M are set (R40(a), R109). -/
  cellsBound : ∀ j ∈ s.cells.ones, j < s.m.toNat
  /-- SETBITS is the number of set cells below M (R40(b)). -/
  count : s.setbits.toNat = s.countCells s.m.toNat
  /-- Once configured: the storage was cleared, and M and K are in range (R40(a), R40(c), R32, R33). -/
  geometry : s.status.configured = true →
    s.cells.cleared = true ∧ 1 ≤ s.m.toNat ∧ s.m.toNat ≤ s.params.mmax ∧ 1 ≤ s.k.toNat ∧ s.k.toNat ≤ s.params.kmax
  /-- While unconfigured M and K are 0 (R32, R33). -/
  blank : s.status.configured = false → s.m = 0 ∧ s.k = 0
  /-- CMD holds the pending word (R23, R64). -/
  pendingCmd : ∀ w, s.pending = some w → s.cmd = w

/-- The word whose command the next step completes, if the core moves next. -/
def completing (s : State) : Option Word :=
  match s.wait with
  | 0 => s.pending
  | _ + 1 => none

/-- The host operation the next step takes, if the host moves next and has one. -/
def hostMove (s : State) : Option HostOp :=
  match completing s with
  | some _ => none
  | none => s.todo.head?

/-- The next step is a hardware reset (R138). -/
abbrev resetting (s : State) : Prop := hostMove s = some .hardReset

/-- The next step may empty the bit vector: a hardware reset, or the completion of CONFIGURE or CLEAR (R106). -/
abbrev emptying (s : State) : Prop :=
  resetting s ∨ completing s = some (encode .configure) ∨ completing s = some (encode .clear)

/-- The machine takes a step from s to t. -/
abbrev Steps (s t : State) : Prop := step s = .next t

/-- A step that is no CONFIGURE, CLEAR or reset and changes no seed (R118). -/
abbrev QuietStep (s t : State) : Prop :=
  step s = .next t ∧ ¬ emptying s ∧ t.seed0 = s.seed0 ∧ t.seed1 = s.seed1

/-- Any number of such steps. -/
abbrev QuietRun : State → State → Prop := Relation.ReflTransGen QuietStep

/-- t is reached from s by n steps. -/
def RunsTo (n : Nat) (s t : State) : Prop := Host.Core.run
  { State := State, Fault := Fault, Refusal := Refusal, step := step, reset := State.reset } n s = .next t

/-- The host program has ended (R153). -/
abbrev HostDone (s : State) : Prop := s.todo = [] ∧ s.pending = none

/-- It has ended with every command successful since STICKY was last clear, and no write dropped (R153). -/
abbrev CleanEnd (s : State) : Prop := HostDone s ∧ s.status.sticky = false ∧ s.status.ovr = false

/-- The state after a bus access or a command agrees with the state before on all that a command never writes: the
parameters, CMD, the operands, the seeds, OVR, every byte of the message buffer, and the host's side. -/
structure KeepsInputs (s t : State) : Prop where
  params : t.params = s.params
  cmd : t.cmd = s.cmd
  arg0 : t.arg0 = s.arg0
  arg1 : t.arg1 = s.arg1
  msglen : t.msglen = s.msglen
  seed0 : t.seed0 = s.seed0
  seed1 : t.seed1 = s.seed1
  ovr : t.status.ovr = s.status.ovr
  msgByte : ∀ j, t.msgByte j = s.msgByte j
  wait : t.wait = s.wait
  epoch : t.epoch = s.epoch
  draws : t.draws = s.draws
  todo : t.todo = s.todo
  responses : t.responses = s.responses

/-- The state after `raise Error(c)` (R126): ERRCODE <- c, ERR <- 1, STICKY <- 1, BUSY <- 0, and nothing else. -/
def errorState (s : State) (c : ErrCode) : State :=
  { s with status := { s.status with errcode := c, sticky := true }, pending := none }

/-- The state after one more response to the host, and no other change. -/
def answered (s : State) (rdata : Option Word) (err : Bool) : State :=
  { s with responses := s.responses ++ [{ rdata := rdata, err := err }] }

end Sys2Proof.Machine
end

