-- ==== Sys2Proof/Certificates/Slice0/Obligations.lean ====
section
/-! DEFINITION. The statements for the provers, file by file of spec/. -/

open Sys2Proof Sys2Proof.Machine

/-! ### 30_encoding.md -/

/-- R73, R76: the decoder accepts a word as a command exactly when it is that command's encoding, for every word and
every command with both engines. -/
def Obligations.DecodeAcceptsExactlyTheEncodings : Prop :=
  ∀ (w : Word) (i : Instr), decode w = .ok i ↔ encode i = w

/-- R74: a word is illegal exactly when its OP is none of the eleven, or a bit of [63:9] is set, or E = 1 with an OP
other than 0x10 or 0x11. -/
def Obligations.IllegalWordsAreThoseOfTheList : Prop :=
  ∀ w : Word, (∃ r, decode w = .error r) ↔
    w.extractLsb' 0 8 ∉ [0x00#8, 0x01#8, 0x02#8, 0x10#8, 0x11#8, 0x20#8, 0x30#8, 0x31#8, 0x32#8, 0x40#8, 0x41#8] ∨
    (∃ b, 9 ≤ b ∧ b < 64 ∧ w.getLsbD b = true) ∨
    (w.getLsbD 8 = true ∧ w.extractLsb' 0 8 ≠ 0x10#8 ∧ w.extractLsb' 0 8 ≠ 0x11#8)

/-- Words written out from R73 and the decode table of 95_test_vectors.md decode to the command they stand for. -/
def Obligations.WrittenOutWordsDecode : Prop :=
  decode 0x0000000000000000 = .ok .nop ∧ decode 0x0000000000000001 = .ok .configure ∧
  decode 0x0000000000000110 = .ok (.hreset .e1) ∧ decode 0x0000000000000011 = .ok (.hwrite .e0) ∧
  decode 0x0000000000000020 = .ok .index ∧ decode 0x0000000000000032 = .ok .popcnt ∧
  decode 0x0000000000000041 = .ok .includes ∧ decode 0x0000000000000141 = .error .engineBit ∧
  decode 0x0000000000000210 = .error .reservedBits ∧ decode 0x0000000000000033 = .error .unassignedOp

/-! ### The step: 00_scope.md R16, 20_memory.md R63, 60_exceptions.md -/

/-- When a command is pending and its latency is over, a step is the command's completion on that state, and the word
that `withFetchWord` places is the command the very next step completes; at any other time a step is one turn of the
host. What `withFetchWord` places, and that it stands for a host that issues the word, is the model's choice (log entry
12); how many turns the latency gives is the model's reading of R150 (log entry 5). -/
def Obligations.StepCompletesTheDecodedCommand : Prop :=
  (∀ (s : State) (w : Word) (i : Instr), s.pending = some w → s.wait = 0 → decode w = .ok i → i.wellFormed = true →
    step s = exec i s) ∧
  (∀ (s : State) (i : Instr), step (s.withFetchWord 64 (encode i).toNat) =
    exec i { s with cmd := encode i, pending := some (encode i), wait := 0 }) ∧
  (∀ s : State, s.pending = none → step s = .next (hostTurn s)) ∧
  (∀ (s : State) (w : Word) (n : Nat), s.pending = some w → s.wait = n + 1 →
    step s = .next (hostTurn { s with wait := n }))

/-- R123: an accepted illegal word completes with ERRCODE = ILLEGAL_CMD, ERR = 1, STICKY = 1 and BUSY = 0, and
nothing else changes; where the invariant holds, CMD holds the illegal word. -/
def Obligations.IllegalWordOnlySetsStatus : Prop :=
  ∀ (s : State) (w : Word) (r : DecodeError), s.pending = some w → s.wait = 0 → decode w = .error r →
    step s = .next (errorState s .illegalCmd) ∧
    (errorState s .illegalCmd).statusWord.extractLsb' 8 8 = 0x01#8 ∧
    (errorState s .illegalCmd).statusWord.getLsbD 2 = true ∧
    (errorState s .illegalCmd).statusWord.getLsbD 3 = true ∧
    (errorState s .illegalCmd).statusWord.getLsbD 0 = false ∧
    (Inv s → (errorState s .illegalCmd).cmd = w)

/-- R127: there is no trap mechanism: from every state, reachable or not, a step answers a next state, and so does
every command. -/
def Obligations.EveryStepAnswersANextState : Prop :=
  (∀ s : State, ∃ t, step s = .next t) ∧ (∀ (i : Instr) (s : State), ∃ t, exec i s = .next t ∧ t.pending = none)

/-! ### 20_memory.md: the host bus -/

/-- R50: a request that is not well formed (a misaligned offset, or a write with a partial or empty strobe) gets
rsp_err = 1 and a read returns 0; nothing else changes. -/
def Obligations.MalformedRequestHasNoEffect : Prop :=
  ∀ (s : State) (a : BitVec 21) (strb : BitVec 8) (v : Word),
    (a.toNat % 8 ≠ 0 → serve (.read a) s = answered s (some 0) true) ∧
    (a.toNat % 8 ≠ 0 ∨ strb ≠ 0xFF#8 → serve (.write a strb v) s = answered s none true)

/-- R65: a well-formed write of any offset while BUSY = 1 changes nothing but OVR <- 1, and its response has
rsp_err = 0. -/
def Obligations.WriteWhileBusyIsDropped : Prop :=
  ∀ (s : State) (a : BitVec 21) (v : Word), s.busy = true → a.toNat % 8 = 0 →
    serve (.write a 0xFF v) s = answered { s with status := { s.status with ovr := true } } none false

/-- R52: reserved offsets read as zero, busy or not, and ignore writes; while BUSY = 1 a write there still sets OVR; and
the reserved bits of STATUS read 0 whatever a host writes to it. -/
def Obligations.ReservedReadsZeroIgnoresWrites : Prop :=
  (∀ (s : State) (a : BitVec 21) (v : Word), s.params.Legal → a.toNat % 8 = 0 →
    (0x98 ≤ a.toNat ∧ a.toNat < 0x10000 ∨ 0x10000 + s.params.msgmax ≤ a.toNat ∧ a.toNat < 0x100000 ∨
      0x100000 + s.params.mmax / 8 ≤ a.toNat) →
    serve (.read a) s = answered s (some 0) false ∧
    (s.busy = false → serve (.write a 0xFF v) s = answered s none false) ∧
    (s.busy = true →
      serve (.write a 0xFF v) s = answered { s with status := { s.status with ovr := true } } none false)) ∧
  (∀ (s : State) (v : Word),
    (serve (.write 0x28 0xFF v) s).statusWord.extractLsb' 5 3 = 0#3 ∧
    (serve (.write 0x28 0xFF v) s).statusWord.extractLsb' 16 48 = 0#48 ∧
    s.statusWord.extractLsb' 5 3 = 0#3 ∧ s.statusWord.extractLsb' 16 48 = 0#48)

/-- R18 to R24, R30 to R37, R64: what a read of each of the 19 registers returns, by its offset: ID, the CAP registers,
CMD, STATUS, ARG0, ARG1, MSGLEN, SEED0 and SEED1 whether BUSY is 0 or 1, the other eight while BUSY = 0. The read changes
nothing. -/
def Obligations.RegisterReads : Prop :=
  ∀ s : State,
    (∀ e ∈ ([(0x00, 0x00000001474C4F4D#64), (0x08, BitVec.ofNat 64 s.params.mmax), (0x10, BitVec.ofNat 64 s.params.kmax),
      (0x18, BitVec.ofNat 64 s.params.msgmax), (0x20, s.cmd), (0x28, s.statusWord), (0x30, s.arg0), (0x38, s.arg1),
      (0x60, s.msglen), (0x68, s.seed0), (0x70, s.seed1)] : List (BitVec 21 × Word)),
      serve (.read e.1) s = answered s (some e.2) false) ∧
    (s.busy = false → ∀ e ∈ ([(0x40, s.result), (0x48, s.m), (0x50, s.k), (0x58, s.setbits), (0x78, s.eng0.h0),
      (0x80, s.eng0.h1), (0x88, s.eng1.h0), (0x90, s.eng1.h1)] : List (BitVec 21 × Word)),
      serve (.read e.1) s = answered s (some e.2) false)

/-- R24, R122: the fields of STATUS, bit by bit, and the number that ERRCODE shows for each of the six codes. -/
def Obligations.StatusFieldPositions : Prop :=
  ∀ s : State,
    s.statusWord.getLsbD 0 = s.pending.isSome ∧ s.statusWord.getLsbD 1 = s.status.configured ∧
    (s.statusWord.getLsbD 2 = true ↔ s.statusWord.extractLsb' 8 8 ≠ 0#8) ∧
    s.statusWord.getLsbD 3 = s.status.sticky ∧ s.statusWord.getLsbD 4 = s.status.ovr ∧
    s.statusWord.extractLsb' 8 8 = s.status.errcode.code ∧ s.statusWord.extractLsb' 8 8 ≤ 0x05#8 ∧
    ErrCode.ok.code = 0x00 ∧ ErrCode.illegalCmd.code = 0x01 ∧ ErrCode.invalidParam.code = 0x02 ∧
    ErrCode.notConfigured.code = 0x03 ∧ ErrCode.range.code = 0x04 ∧ ErrCode.hashWrite.code = 0x05

/-- R18, R23, R24: what a write of each register does while BUSY = 0: a RW register takes the word, CMD accepts it as a
command, legal or not, STATUS clears STICKY and OVR by ones in bits 3 and 4 and ignores all other bits, and a read-only
register ignores it. That an acceptance sets `wait` to the latency and takes one draw is the model's reading of R150 (log
entries 5 and 6). -/
def Obligations.RegisterWrites : Prop :=
  ∀ (s : State) (v : Word), s.busy = false →
    serve (.write 0x30 0xFF v) s = answered { s with arg0 := v } none false ∧
    serve (.write 0x38 0xFF v) s = answered { s with arg1 := v } none false ∧
    serve (.write 0x60 0xFF v) s = answered { s with msglen := v } none false ∧
    serve (.write 0x68 0xFF v) s = answered { s with seed0 := v } none false ∧
    serve (.write 0x70 0xFF v) s = answered { s with seed1 := v } none false ∧
    serve (.write 0x28 0xFF v) s = answered { s with
      status := { s.status with sticky := s.status.sticky && !v.getLsbD 3, ovr := s.status.ovr && !v.getLsbD 4 } } none false ∧
    (∃ n, serve (.write 0x20 0xFF v) s =
      answered { s with cmd := v, pending := some v, wait := n, draws := s.draws + 1 } none false) ∧
    (∀ a ∈ [0x00#21, 0x08#21, 0x10#21, 0x18#21, 0x40#21, 0x48#21, 0x50#21, 0x58#21, 0x78#21, 0x80#21, 0x88#21, 0x90#21],
      serve (.write a 0xFF v) s = answered s none false)

/-- R56: no read changes the block's state (only the model's draw counter may advance); and a write to any location but
CMD, repeated, leaves the state the first one left. -/
def Obligations.ReadsAreHarmlessAndWritesIdempotent : Prop :=
  (∀ (s : State) (a : BitVec 21), ∃ v err n, serve (.read a) s = answered { s with draws := n } (some v) err) ∧
  (∀ (s : State) (a : BitVec 21) (v : Word), s.msgbuf.wf → a ≠ 0x20#21 → s.busy = false →
    memWrite a v (memWrite a v s) = memWrite a v s)

/-- R64: while BUSY = 1 a read of RESULT, M, K, SETBITS, an engine word or a BITVEC word returns a fresh draw, and
every other location reads the value it holds (for the registers, `RegisterReads` names it; for the windows and the
reserved offsets, `MsgbufWindow` and `ReservedReadsZeroIgnoresWrites`); where the invariant holds, CMD reads as the pending
word, and STATUS as on an idle block with the same fields, but for BUSY = 1. -/
def Obligations.VolatileReadsAreFreshDraws : Prop :=
  (∀ (s : State) (a : BitVec 21), s.params.Legal → s.busy = true → a.toNat % 8 = 0 →
    (a ∈ [0x40#21, 0x48#21, 0x50#21, 0x58#21, 0x78#21, 0x80#21, 0x88#21, 0x90#21] ∨
        0x100000 ≤ a.toNat ∧ a.toNat < 0x100000 + s.params.mmax / 8 →
      serve (.read a) s = answered { s with draws := s.draws + 1 } (some (Config.volatileRead s.draws)) false) ∧
    (a ∉ [0x40#21, 0x48#21, 0x50#21, 0x58#21, 0x78#21, 0x80#21, 0x88#21, 0x90#21] ∧
        ¬ (0x100000 ≤ a.toNat ∧ a.toNat < 0x100000 + s.params.mmax / 8) →
      serve (.read a) s = answered s (some (s.peek (regionAt s.params a.toNat))) false)) ∧
  (∀ (s : State) (w : Word), Inv s → s.pending = some w →
    serve (.read 0x20) s = answered s (some w) false ∧
    ∃ v, serve (.read 0x28) s = answered s (some v) false ∧ v.getLsbD 0 = true ∧
      v = ({ s with pending := none } : State).statusWord ||| 1)

/-- R64: the values after a completion do not depend on the draws: the same command on two states that differ only in
the draw counter gives states that differ only there. -/
def Obligations.CompletionsIgnoreTheDraws : Prop :=
  ∀ (i : Instr) (s t : State) (n : Nat), exec i s = .next t → exec i { s with draws := n } = .next { t with draws := n }

/-- R57: the MSGBUF window. A read returns the eight bytes little-endian; a write while BUSY = 0 sets exactly those
eight bytes and nothing else. -/
def Obligations.MsgbufWindow : Prop :=
  ∀ (s : State) (w : Nat) (v : Word), s.params.Legal → w < s.params.msgmax / 8 →
    (∃ x, serve (.read (BitVec.ofNat 21 (0x10000 + 8 * w))) s = answered s (some x) false ∧
      x.toNat = ∑ t ∈ Finset.range 8, (s.msgByte (8 * w + t)).toNat * 2 ^ (8 * t)) ∧
    (s.busy = false → ∃ mem,
      serve (.write (BitVec.ofNat 21 (0x10000 + 8 * w)) 0xFF v) s = answered { s with msgbuf := mem } none false ∧
      ∀ j, ({ s with msgbuf := mem } : State).msgByte j =
        if 8 * w ≤ j ∧ j < 8 * w + 8 then v.extractLsb' (8 * (j - 8 * w)) 8 else s.msgByte j)

/-- R54, R57: a MSGBUF word that lies inside the message is LE64 of the message at that place; so the two words of a
whole block b, which R89 takes at 16b and 16b + 8, are the MSGBUF words at window offsets 16b and 16b + 8. R54's own last
sentence prints 32b and 32b + 8 there (log entry 15). -/
def Obligations.MsgbufWordIsLe64OfTheMessage : Prop :=
  ∀ (s : State) (w b : Nat),
    (8 * w + 8 ≤ s.msglen.toNat → s.msgWord w = le64 s.message (8 * w)) ∧
    (16 * b + 16 ≤ s.msglen.toNat →
      s.msgWord (2 * b) = le64 s.message (16 * b) ∧ s.msgWord (2 * b + 1) = le64 s.message (16 * b + 8))

/-- R58: the BITVEC window. While BUSY = 0, bit t of word w reads cell 64w + t if that is below M, and 0 otherwise, so
every word reads 0 while M = 0; writes are ignored. -/
def Obligations.BitvecWindow : Prop :=
  ∀ (s : State) (w : Nat) (v : Word), s.params.Legal → w < s.params.mmax / 64 → s.busy = false →
    (∃ x, serve (.read (BitVec.ofNat 21 (0x100000 + 8 * w))) s = answered s (some x) false ∧
      (∀ t, t < 64 → x.getLsbD t = (decide (64 * w + t < s.m.toNat) && s.bit (64 * w + t))) ∧
      (s.m = 0 → x = 0)) ∧
    serve (.write (BitVec.ofNat 21 (0x100000 + 8 * w)) 0xFF v) s = answered s none false

/-- R53: the host bus is little-endian. The byte at offset o + t is bits [8t+7:8t] of the word that a read of o returns
on an idle block; so the byte at 0x01_0000 + j is message byte j, bit u of the byte at 0x10_0000 + j is cell 8j + u below
M, and a write of v to a MSGBUF word puts bits [8t+7:8t] of v at its offset + t. -/
def Obligations.BusIsLittleEndian : Prop :=
  ∀ s : State, s.params.Legal →
    (s.busy = false → ∀ (a : BitVec 21), a.toNat % 8 = 0 → ∃ v, serve (.read a) s = answered s (some v) false ∧
      ∀ t, t < 8 → s.peekByte (a.toNat + t) = v.extractLsb' (8 * t) 8) ∧
    (∀ j, j < s.params.msgmax → s.peekByte (0x10000 + j) = s.msgByte j) ∧
    (∀ j u, j < s.params.mmax / 8 → u < 8 →
      (s.peekByte (0x100000 + j)).getLsbD u = (decide (8 * j + u < s.m.toNat) && s.bit (8 * j + u))) ∧
    (s.busy = false → ∀ (w t : Nat) (v : Word), w < s.params.msgmax / 8 → t < 8 →
      (serve (.write (BitVec.ofNat 21 (0x10000 + 8 * w)) 0xFF v) s).peekByte (0x10000 + 8 * w + t) =
        v.extractLsb' (8 * t) 8)

/-! ### 40_hash.md -/

/-- R88: HRESET e completes on every state: both words of engine e take SEEDe, ERRCODE takes OK, and nothing else
changes. -/
def Obligations.HresetLoadsTheSeed : Prop :=
  ∀ s : State,
    exec (.hreset .e0) s = .next { s with
      eng0 := ⟨s.seed0, s.seed0⟩, status := { s.status with errcode := .ok }, pending := none } ∧
    exec (.hreset .e1) s = .next { s with
      eng1 := ⟨s.seed1, s.seed1⟩, status := { s.status with errcode := .ok }, pending := none }

/-- R89: HWRITE e with MSGLEN <= MSGMAX completes: engine e takes the blocks, the tail and the finalization of the
message, from the words it held, and nothing else changes but ERRCODE <- OK; with MSGLEN > MSGMAX it raises
HASH_WRITE. -/
def Obligations.HwriteDigestsTheMessage : Prop :=
  ∀ (s : State) (d : List Byte) (run : EngineWords → EngineWords), d = (List.range s.msglen.toNat).map s.msgByte →
    (∀ h, run h = finalize (tailStep ((List.range (s.msglen.toNat / 16)).foldl
      (fun h b => blockStep h (le64 d (16 * b)) (le64 d (16 * b + 8))) h) d) s.msglen.toNat) →
    (s.msglen.toNat ≤ s.params.msgmax →
      exec (.hwrite .e0) s = .next { s with
        eng0 := run s.eng0, status := { s.status with errcode := .ok }, pending := none } ∧
      exec (.hwrite .e1) s = .next { s with
        eng1 := run s.eng1, status := { s.status with errcode := .ok }, pending := none }) ∧
    (s.params.msgmax < s.msglen.toNat → ∀ e, exec (.hwrite e) s = .next (errorState s .hashWrite))

/-- R84, R89: the block loop takes the message sixteen bytes at a time from the front, and stops when fewer are
left. -/
def Obligations.BlockLoopPeelsBlocks : Prop :=
  (∀ (h : EngineWords) (x y : List Byte), x.length = 16 →
    blockLoop h (x ++ y) = blockLoop (blockStep h (le64 x 0) (le64 x 8)) y) ∧
  (∀ (h : EngineWords) (d : List Byte), d.length < 16 → blockLoop h d = h)

/-- R82 to R85, R87: the key mixers and the block step with the rotation as the library's one operation, the h1
step reading the new h0; the avalanche mix; the finalization with message length n, its two pairs of additions around the
avalanche of each word; the corner cases at 0; and MM3 as block loop, tail step and finalization with the message's whole
length. -/
def Obligations.MixersRotate : Prop :=
  ∀ (h : EngineWords) (k k1 k2 : Word) (n : Nat) (d : List Byte),
    mixK1 k = (k * 0x87c37b91114253d5).rotateLeft 31 * 0x4cf5ad432745937f ∧
    mixK2 k = (k * 0x4cf5ad432745937f).rotateLeft 33 * 0x87c37b91114253d5 ∧
    (blockStep h k1 k2).h0 = ((h.h0 ^^^ mixK1 k1).rotateLeft 27 + h.h1) * 5 + 0x52dce729 ∧
    (blockStep h k1 k2).h1 = ((h.h1 ^^^ mixK2 k2).rotateLeft 31 + (blockStep h k1 k2).h0) * 5 + 0x38495ab5 ∧
    (∃ x y : Word, x = (k ^^^ k >>> 33) * 0xff51afd7ed558ccd ∧ y = (x ^^^ x >>> 33) * 0xc4ceb9fe1a85ec53 ∧
      fmix64 k = y ^^^ y >>> 33) ∧
    (∃ a b : Word, a = (h.h0 ^^^ BitVec.ofNat 64 n) + (h.h1 ^^^ BitVec.ofNat 64 n) ∧
      b = (h.h1 ^^^ BitVec.ofNat 64 n) + a ∧
      (finalize h n).h0 = fmix64 a + fmix64 b ∧ (finalize h n).h1 = fmix64 b + (finalize h n).h0) ∧
    mixK1 0 = 0 ∧ mixK2 0 = 0 ∧ fmix64 0 = 0 ∧
    mm3 h d = finalize (tailStep (blockLoop h d) d) d.length

/-- R86, 90_conflicts.md C2: the tail step mixes two words into the state: the little-endian sums of tail bytes 0 to 7
and of tail bytes 8 to 14; its conditions on the tail's length do not change the result. -/
def Obligations.TailStepFoldsTheTailBytes : Prop :=
  ∀ (h : EngineWords) (d : List Byte), ∃ k1 k2 : Word,
    k1.toNat = ∑ j ∈ Finset.range (min (d.length % 16) 8), (d.getD (16 * (d.length / 16) + j) 0).toNat * 2 ^ (8 * j) ∧
    k2.toNat = ∑ j ∈ Finset.range (d.length % 16 - 8), (d.getD (16 * (d.length / 16) + 8 + j) 0).toNat * 2 ^ (8 * j) ∧
    (tailStep h d).h0 = h.h0 ^^^ mixK1 k1 ∧ (tailStep h d).h1 = h.h1 ^^^ mixK2 k2

/-- R90: HRESET e and HWRITE e over message x, then HWRITE e over message y with the engine words untouched between,
leave MM3(MM3(s, s, x), y). -/
def Obligations.HwriteWithoutResetChains : Prop :=
  ∀ (e : EngineSel) (s s1 s2 u v : State), s.msglen.toNat ≤ s.params.msgmax → exec (.hreset e) s = .next s1 →
    exec (.hwrite e) s1 = .next s2 → u.engine e = s2.engine e → u.msglen.toNat ≤ u.params.msgmax →
    exec (.hwrite e) u = .next v →
    v.engine e = mm3 (mm3 ⟨s.seed e, s.seed e⟩ s.message) u.message

/-- R94: the digest depends on nothing but the engine's words and the message bytes 0 to MSGLEN - 1: not on buffer
bytes at or beyond MSGLEN, not on the other engine. -/
def Obligations.HwriteReadsOnlyItsMessage : Prop :=
  ∀ (e : EngineSel) (s s' t t' : State), s.engine e = s'.engine e → s.msglen = s'.msglen → s.params = s'.params →
    (∀ j, j < s.msglen.toNat → s.msgByte j = s'.msgByte j) → exec (.hwrite e) s = .next t →
    exec (.hwrite e) s' = .next t' → t.engine e = t'.engine e ∧ t.status.errcode = t'.status.errcode

/-! ### 41_index.md -/

/-- R97: for m >= 1 the index is ((a + i*b + i*i*i) mod 2^64) mod m over the integers, and so lies in [0, m). -/
def Obligations.IndexFunctionIsTheWrappedSumModM : Prop :=
  ∀ a b i m : Word, m ≠ 0 →
    (idx a b i m).toNat = ((a.toNat + i.toNat * b.toNat + i.toNat * i.toNat * i.toNat) % 2 ^ 64) % m.toNat ∧
    (idx a b i m).toNat < m.toNat

/-- R98: INDEX on a configured block with ARG0 < K completes with the index in RESULT and changes nothing else but
ERRCODE <- OK; unconfigured it raises NOT_CONFIGURED, and with ARG0 >= K it raises RANGE. -/
def Obligations.IndexCommand : Prop :=
  ∀ s : State,
    (s.status.configured = true → s.arg0.toNat < s.k.toNat →
      exec .index s = .next { s with
        result := idx s.eng0.h0 s.eng1.h0 s.arg0 s.m, status := { s.status with errcode := .ok }, pending := none }) ∧
    (s.status.configured = false → exec .index s = .next (errorState s .notConfigured)) ∧
    (s.status.configured = true → s.k.toNat ≤ s.arg0.toNat → exec .index s = .next (errorState s .range))

/-! ### 42_bitvector.md -/

/-- R102: CLEAR on a configured block completes: every cell and SETBITS become 0, ERRCODE takes OK, nothing else
changes; unconfigured it raises NOT_CONFIGURED. -/
def Obligations.ClearEmptiesTheVector : Prop :=
  ∀ s : State,
    (s.status.configured = true → ∃ c, exec .clear s = .next { s with
      cells := c, setbits := 0, status := { s.status with errcode := .ok }, pending := none } ∧
      ∀ j, ({ s with cells := c } : State).bit j = false) ∧
    (s.status.configured = false → exec .clear s = .next (errorState s .notConfigured))

/-- R104: TEST on a configured block with ARG0 < M completes with the cell in RESULT and changes nothing else but
ERRCODE <- OK; unconfigured it raises NOT_CONFIGURED, and with ARG0 >= M it raises RANGE. -/
def Obligations.TestReadsOneCell : Prop :=
  ∀ s : State,
    (s.status.configured = true → s.arg0.toNat < s.m.toNat →
      exec .test s = .next { s with
        result := if s.bit s.arg0.toNat then 1 else 0, status := { s.status with errcode := .ok }, pending := none }) ∧
    (s.status.configured = false → exec .test s = .next (errorState s .notConfigured)) ∧
    (s.status.configured = true → s.m.toNat ≤ s.arg0.toNat → exec .test s = .next (errorState s .range))

/-- R105, R103: MARK on a configured block with ARG0 < M completes: that one cell is 1, RESULT is 1 if it was 0 and
SETBITS grows by RESULT; nothing else changes but ERRCODE <- OK; unconfigured it raises NOT_CONFIGURED, and with
ARG0 >= M it raises RANGE. -/
def Obligations.MarkSetsOneCell : Prop :=
  ∀ s : State,
    (s.status.configured = true → s.arg0.toNat < s.m.toNat → ∃ c r,
      exec .mark s = .next { s with
        cells := c, result := r, setbits := s.setbits + r, status := { s.status with errcode := .ok },
        pending := none } ∧
      r = (if s.bit s.arg0.toNat then 0 else 1) ∧
      ∀ j, ({ s with cells := c } : State).bit j = (s.bit j || decide (j = s.arg0.toNat))) ∧
    (s.status.configured = false → exec .mark s = .next (errorState s .notConfigured)) ∧
    (s.status.configured = true → s.m.toNat ≤ s.arg0.toNat → exec .mark s = .next (errorState s .range))

/-- R107: POPCNT completes on every state: RESULT is the number of set cells below M, and nothing else changes but
ERRCODE <- OK. -/
def Obligations.PopcntCountsTheCells : Prop :=
  ∀ s : State, exec .popcnt s = .next { s with
    result := BitVec.ofNat 64 ((Finset.range s.m.toNat).filter (fun j => s.bit j = true)).card,
    status := { s.status with errcode := .ok }, pending := none }

/-- R108: where the invariant holds, POPCNT's result equals SETBITS, and SETBITS is at most M and at most MMAX. -/
def Obligations.PopcntAgreesWithSetbits : Prop :=
  ∀ s t : State, Inv s → exec .popcnt s = .next t →
    t.result = t.setbits ∧ t.setbits.toNat ≤ t.m.toNat ∧ t.setbits.toNat ≤ t.params.mmax

/-- R106: a step that is no CONFIGURE, CLEAR or reset clears no cell, and SETBITS grows by exactly the number of cells
that went from 0 to 1. -/
def Obligations.CellsAndCountOnlyGrow : Prop :=
  ∀ s t : State, Inv s → step s = .next t → ¬ emptying s →
    (∀ j, s.bit j = true → t.bit j = true) ∧
    t.setbits.toNat = s.setbits.toNat +
      ((Finset.range s.m.toNat).filter (fun j => s.bit j = false ∧ t.bit j = true)).card

/-- R109: no command writes a 1 to a cell at or above M, no command but CONFIGURE and CLEAR writes a 0, and no host
access writes a cell. -/
def Obligations.NoCellAboveMIsWritten : Prop :=
  (∀ (i : Instr) (s t : State) (j : Nat), Inv s → exec i s = .next t → t.bit j = true → s.bit j = false →
    j < s.m.toNat) ∧
  (∀ (i : Instr) (s t : State) (j : Nat), exec i s = .next t → i ≠ .configure → i ≠ .clear → s.bit j = true →
    t.bit j = true) ∧
  (∀ (q : BusRequest) (s : State) (j : Nat), (serve q s).bit j = s.bit j)

/-! ### 43_filter.md -/

/-- R110: NOP completes on every state; nothing changes but ERRCODE <- OK, ERR and BUSY. -/
def Obligations.NopOnlyCompletes : Prop :=
  ∀ s : State, exec .nop s = .next { s with status := { s.status with errcode := .ok }, pending := none }

/-- R112: CONFIGURE with 1 <= ARG0 <= MMAX and 1 <= ARG1 <= KMAX completes with a new, empty filter of that geometry
and both engines at their seeds, and changes nothing else; with any other operands it raises INVALID_PARAM. -/
def Obligations.ConfigureMakesAnEmptyFilter : Prop :=
  ∀ s : State,
    (1 ≤ s.arg0.toNat → s.arg0.toNat ≤ s.params.mmax → 1 ≤ s.arg1.toNat → s.arg1.toNat ≤ s.params.kmax → ∃ c,
      exec .configure s = .next { s with
        m := s.arg0, k := s.arg1, cells := c, setbits := 0, eng0 := ⟨s.seed0, s.seed0⟩, eng1 := ⟨s.seed1, s.seed1⟩,
        status := { s.status with configured := true, errcode := .ok }, pending := none } ∧
      ∀ j, ({ s with cells := c } : State).bit j = false) ∧
    (s.arg0 = 0 ∨ s.params.mmax < s.arg0.toNat ∨ s.arg1 = 0 ∨ s.params.kmax < s.arg1.toNat →
      exec .configure s = .next (errorState s .invalidParam))

/-- R114: SET on a configured block with MSGLEN <= MSGMAX completes: the engines hold the digests of the message, which
are MM3(SEED0, SEED0, d) and MM3(SEED1, SEED1, d) (R91, R100), the cells at its K positions are 1 and no other cell
changes, RESULT is the number of cells that changed and SETBITS grows by RESULT; nothing else changes but ERRCODE <- OK.
Unconfigured it raises NOT_CONFIGURED; configured with MSGLEN > MSGMAX it raises HASH_WRITE. -/
def Obligations.SetMarksThePositions : Prop :=
  ∀ (s : State) (h0 h1 : EngineWords) (pos : Nat → Nat),
    h0 = mm3 ⟨s.seed0, s.seed0⟩ s.message → h1 = mm3 ⟨s.seed1, s.seed1⟩ s.message →
    (∀ i, pos i = (idx h0.h0 h1.h0 (BitVec.ofNat 64 i) s.m).toNat) →
    (s.status.configured = true → s.msglen.toNat ≤ s.params.msgmax → ∃ c r,
      exec .set s = .next { s with
        eng0 := h0, eng1 := h1, cells := c, result := r, setbits := s.setbits + r,
        status := { s.status with errcode := .ok }, pending := none } ∧
      (∀ j, ({ s with cells := c } : State).bit j = true ↔ s.bit j = true ∨ ∃ i, i < s.k.toNat ∧ j = pos i) ∧
      r = BitVec.ofNat 64 (((Finset.range s.k.toNat).image pos).filter (fun j => s.bit j = false)).card) ∧
    (s.status.configured = false → exec .set s = .next (errorState s .notConfigured)) ∧
    (s.status.configured = true → s.params.msgmax < s.msglen.toNat → exec .set s = .next (errorState s .hashWrite))

/-- R116: INCLUDES on a configured block with MSGLEN <= MSGMAX completes: the engines hold the digests of the message,
which are MM3(SEED0, SEED0, d) and MM3(SEED1, SEED1, d) (R91, R100), RESULT is 1 if all K positions are set and 0
otherwise, and nothing else changes but ERRCODE <- OK. Unconfigured it raises NOT_CONFIGURED; configured with
MSGLEN > MSGMAX it raises HASH_WRITE. -/
def Obligations.IncludesAsksAllPositions : Prop :=
  ∀ (s : State) (h0 h1 : EngineWords) (pos : Nat → Nat),
    h0 = mm3 ⟨s.seed0, s.seed0⟩ s.message → h1 = mm3 ⟨s.seed1, s.seed1⟩ s.message →
    (∀ i, pos i = (idx h0.h0 h1.h0 (BitVec.ofNat 64 i) s.m).toNat) →
    (s.status.configured = true → s.msglen.toNat ≤ s.params.msgmax → ∃ r,
      exec .includes s = .next { s with
        eng0 := h0, eng1 := h1, result := r, status := { s.status with errcode := .ok }, pending := none } ∧
      ((∀ i, i < s.k.toNat → s.bit (pos i) = true) → r = 1) ∧
      (¬ (∀ i, i < s.k.toNat → s.bit (pos i) = true) → r = 0)) ∧
    (s.status.configured = false → exec .includes s = .next (errorState s .notConfigured)) ∧
    (s.status.configured = true → s.params.msgmax < s.msglen.toNat →
      exec .includes s = .next (errorState s .hashWrite))

/-- R115: a second SET of the same message, with no CONFIGURE, CLEAR, reset or seed change between the two, changes
neither a cell nor SETBITS, and returns RESULT = 0. -/
def Obligations.SecondSetChangesNothing : Prop :=
  ∀ s t u v : State, exec .set s = .next t → t.status.errcode = .ok → QuietRun t u → u.message = s.message →
    exec .set u = .next v → v.status.errcode = .ok →
    v.cells = u.cells ∧ v.setbits = u.setbits ∧ v.result = 0

/-- R118: no false negatives. After a SET that completes with OK, and any run without CONFIGURE, CLEAR, reset or a
change of a seed, an INCLUDES of the same message that completes with OK gives RESULT = 1. -/
def Obligations.NoFalseNegatives : Prop :=
  ∀ s t u v : State, exec .set s = .next t → t.status.errcode = .ok → QuietRun t u → u.message = s.message →
    exec .includes u = .next v → v.status.errcode = .ok → v.result = 1

/-- R121, R91: after SET or INCLUDES completes with OK both engines hold the digests MM3(s, s, d) of the message, each
under its own seed, and an INDEX i that follows, with i below K, returns the i-th position of the message. -/
def Obligations.IndexReplaysThePositions : Prop :=
  ∀ (i : Instr) (s t : State) (a w : Word) (n d : Nat), i = .set ∨ i = .includes → exec i s = .next t →
    t.status.errcode = .ok →
    t.eng0 = mm3 ⟨s.seed0, s.seed0⟩ s.message ∧ t.eng1 = mm3 ⟨s.seed1, s.seed1⟩ s.message ∧
    (a.toNat < s.k.toNat →
      exec .index { t with arg0 := a, cmd := w, pending := some w, wait := n, draws := d } =
        .next { t with
          arg0 := a, cmd := w, wait := n, draws := d,
          result := idx (mm3 ⟨s.seed0, s.seed0⟩ s.message).h0 (mm3 ⟨s.seed1, s.seed1⟩ s.message).h0 a s.m })

/-! ### Whole-machine rules: 10_state.md, 60_exceptions.md, 70_reset_and_hazards.md -/

/-- R30, R41, R23: no command writes ARG0, ARG1, MSGLEN, a seed, CMD, OVR or any byte of the message buffer, nor the
host's side; every completion ends BUSY. -/
def Obligations.CommandsNeverWriteTheirInputs : Prop :=
  ∀ (i : Instr) (s t : State), exec i s = .next t → KeepsInputs s t ∧ t.busy = false

/-- R31: a step changes RESULT only as the completion without error of INDEX, TEST, MARK, POPCNT, SET or INCLUDES, or as a
reset. -/
def Obligations.ResultIsOnlyWrittenByItsCommands : Prop :=
  ∀ s t : State, step s = .next t → t.result ≠ s.result →
    resetting s ∨ (t.status.errcode = .ok ∧
      ∃ i ∈ [Instr.index, .test, .mark, .popcnt, .set, .includes], completing s = some (encode i))

/-- R126: a command that raises an error changes STATUS.ERRCODE, ERR, STICKY and BUSY and nothing else: the state is
as if it had not run. -/
def Obligations.ErrorsArePrecise : Prop :=
  ∀ (i : Instr) (s t : State), exec i s = .next t → t.status.errcode ≠ .ok → t = errorState s t.status.errcode

/-- R124: the codes each command can complete with, each of them on some state that meets the invariant, and no
other. -/
def Obligations.ErrorCodesOfEachCommand : Prop :=
  ∀ codes : Instr → List ErrCode,
    codes .nop = [.ok] → codes .configure = [.ok, .invalidParam] → codes .clear = [.ok, .notConfigured] →
    (∀ e, codes (.hreset e) = [.ok]) → (∀ e, codes (.hwrite e) = [.ok, .hashWrite]) →
    codes .index = [.ok, .notConfigured, .range] → codes .test = [.ok, .notConfigured, .range] →
    codes .mark = [.ok, .notConfigured, .range] → codes .popcnt = [.ok] →
    codes .set = [.ok, .notConfigured, .hashWrite] → codes .includes = [.ok, .notConfigured, .hashWrite] →
    (∀ (i : Instr) (s t : State), exec i s = .next t → t.status.errcode ∈ codes i) ∧
    (∀ (i : Instr), ∀ c ∈ codes i, ∃ s t, Inv s ∧ exec i s = .next t ∧ t.status.errcode = c)

/-- R125: the first cause in the order wins: an illegal word reports ILLEGAL_CMD whatever the state; a legal command
that needs a configured block reports NOT_CONFIGURED on an unconfigured one, whatever its operands. -/
def Obligations.ErrorPriority : Prop :=
  (∀ (s t : State) (w : Word), s.pending = some w → s.wait = 0 → (∃ r, decode w = .error r) → step s = .next t →
    t.status.errcode = .illegalCmd) ∧
  (∀ (i : Instr) (s t : State), i ∈ [Instr.clear, .index, .test, .mark, .set, .includes] →
    s.status.configured = false → exec i s = .next t → t.status.errcode = .notConfigured) ∧
  (∀ (i : Instr) (s t : State), exec i s = .next t → t.status.errcode ≠ .illegalCmd)

/-- R113, R26: M, K and CONFIGURED change only in a reset or in the completion of a CONFIGURE without error, which
sets CONFIGURED and leaves every cell 0. -/
def Obligations.GeometryChangesOnlyByConfigureOrReset : Prop :=
  ∀ s t : State, step s = .next t →
    t.m ≠ s.m ∨ t.k ≠ s.k ∨ t.status.configured ≠ s.status.configured →
    resetting s ∨ (completing s = some (encode .configure) ∧ t.status.errcode = .ok ∧
      t.status.configured = true ∧ ∀ j, t.bit j = false)

/-- R25: BUSY is set only by the acceptance of a word written to CMD, and cleared only by the completion of that
command or by reset. -/
def Obligations.BusyFollowsAcceptanceAndCompletion : Prop :=
  ∀ s t : State, step s = .next t →
    (s.busy = false → t.busy = true →
      ∃ v, hostMove s = some (.request (.write 0x20 0xFF v)) ∧ t.pending = some v ∧ t.cmd = v) ∧
    (s.busy = true → t.busy = false → (completing s).isSome = true ∨ resetting s) ∧
    (s.busy = true → t.busy = true → t.pending = s.pending)

/-- R28: STICKY is set at every completion with ERRCODE ≠ 0 and only there, and cleared only by a host write of 1 to
bit 3 of STATUS while BUSY = 0, or by reset. -/
def Obligations.StickyIsSetByErrorsAndClearedByOnes : Prop :=
  ∀ s t : State, step s = .next t →
    ((completing s).isSome = true → t.status.errcode ≠ .ok → t.status.sticky = true) ∧
    (s.status.sticky = false → t.status.sticky = true → (completing s).isSome = true ∧ t.status.errcode ≠ .ok) ∧
    (s.status.sticky = true → t.status.sticky = false →
      resetting s ∨ ∃ v : Word, hostMove s = some (.request (.write 0x28 0xFF v)) ∧ v.getLsbD 3 = true ∧ s.busy = false)

/-- R29: OVR is set whenever, and only when, a well-formed host write is dropped because BUSY = 1, and cleared only by
a host write of 1 to bit 4 of STATUS while BUSY = 0, or by reset. -/
def Obligations.OvrIsSetByDroppedWritesAndClearedByOnes : Prop :=
  ∀ s t : State, step s = .next t →
    (∀ (a : BitVec 21) (v : Word), hostMove s = some (.request (.write a 0xFF v)) → a.toNat % 8 = 0 → s.busy = true →
      t.status.ovr = true) ∧
    (s.status.ovr = false → t.status.ovr = true → s.busy = true ∧
      ∃ (a : BitVec 21) (v : Word), hostMove s = some (.request (.write a 0xFF v)) ∧ a.toNat % 8 = 0) ∧
    (s.status.ovr = true → t.status.ovr = false →
      resetting s ∨ ∃ v : Word, hostMove s = some (.request (.write 0x28 0xFF v)) ∧ v.getLsbD 4 = true ∧ s.busy = false)

/-- R41, R57: a message byte changes in a step only by a reset or by a host write, while BUSY = 0, of the MSGBUF word
that holds it. -/
def Obligations.MessageBytesChangeOnlyByHostWrites : Prop :=
  ∀ (s t : State) (j : Nat), s.params.Legal → step s = .next t → t.msgByte j ≠ s.msgByte j →
    resetting s ∨ (s.busy = false ∧ j < s.params.msgmax ∧
      ∃ v : Word, hostMove s = some (.request (.write (BitVec.ofNat 21 (0x10000 + 8 * (j / 8))) 0xFF v)))

/-- R40, with the model's canonical forms: every step keeps the invariant. -/
def Obligations.EveryStepKeepsTheInvariant : Prop :=
  ∀ s t : State, Inv s → step s = .next t → Inv t

/-- R40, R45: the invariant holds after reset, for all legal parameters and whatever was drawn before. -/
def Obligations.InvariantHoldsAfterReset : Prop :=
  Inv State.reset ∧ ∀ (p : Params) (epoch draws : Nat), p.Legal → Inv (State.resetWith p epoch draws)

/-- R45, R138: after a hardware reset every register holds its reset value, no command is pending, the block is
unconfigured, message bytes and cells are drawn anew, and what the host still does and was answered is kept. The reset
of the host's own queue is the model's (log entry 4). -/
def Obligations.HardwareResetLoadsTheResetValues : Prop :=
  ∀ (s : State) (rest : List HostOp), s.todo = .hardReset :: rest → s.pending = none ∨ 0 < s.wait → ∃ t, step s = .next t ∧
    t.cmd = 0 ∧ t.statusWord = 0 ∧ t.arg0 = 0 ∧ t.arg1 = 0 ∧ t.result = 0 ∧ t.m = 0 ∧ t.k = 0 ∧ t.setbits = 0 ∧
    t.msglen = 0 ∧ t.seed0 = 0 ∧ t.seed1 = 0xFA ∧ t.eng0 = ⟨0, 0⟩ ∧ t.eng1 = ⟨0xFA, 0xFA⟩ ∧ t.pending = none ∧
    t.params = s.params ∧ t.todo = rest ∧ t.responses = s.responses ∧
    (∀ j, t.msgByte j = Config.msgByte (s.epoch + 1) j) ∧ (∀ j, t.bit j = Config.cell (s.epoch + 1) j)

/-- R150, R65, R67, R63: if the host's queue holds no reset, a pending command completes after finitely many turns of
the host, on a state that differs from the one it was accepted in at most in OVR and on the host's side: no operand
changes under a running command. -/
def Obligations.PendingCommandCompletesOnItsOperands : Prop :=
  ∀ (s : State) (w : Word), s.pending = some w → .hardReset ∉ s.todo →
    ∃ (u t : State), RunsTo s.wait s u ∧
      u = { s with
        wait := 0, draws := u.draws, todo := u.todo, responses := u.responses,
        status := { s.status with ovr := u.status.ovr } } ∧
      completeWord w u = .next t ∧ RunsTo (s.wait + 1) s t ∧ t.busy = false

/-- R79, R150, R153: every host program ends: from every state the machine comes, in finitely many steps, to one in
which the host has nothing left to do and no command is pending; in particular every poll ends. -/
def Obligations.EveryHostProgramEnds : Prop :=
  ∀ s : State, ∃ (n : Nat) (t : State), RunsTo n s t ∧ HostDone t

/-- R80, R59, R145: the expansion of `msg d`, run on an idle block, makes d the message a command reads: MSGLEN is its
length, its bytes and the zeros that pad them to a whole word are in the buffer, every buffer byte beyond those keeps its
value, and nothing else changes but the host's list and responses; the padding does not enter the message. -/
def Obligations.MsgStatementLoadsTheMessage : Prop :=
  ∀ (s : State) (d : List Byte) (rest : List HostOp), Inv s → s.pending = none →
    (HostStmt.msg d).wellFormed s.params = true → s.todo = (HostStmt.msg d).expand ++ rest →
    ∃ t, RunsTo (HostStmt.msg d).expand.length s t ∧ t.message = d ∧
      (∀ j, d.length ≤ j → j < 8 * ((d.length + 7) / 8) → t.msgByte j = 0) ∧
      (∀ j, 8 * ((d.length + 7) / 8) ≤ j → t.msgByte j = s.msgByte j) ∧
      t = { s with msgbuf := t.msgbuf, msglen := BitVec.ofNat 64 d.length, todo := rest, responses := t.responses }

/-- R78, R79, R63: a command statement, run on an idle block, ends with its poll, and leaves what the command's
completion leaves: the state is that of the command's effect on the state with the word accepted, but for the model's
counters and the responses. -/
def Obligations.CommandStatementHasTheCommandsEffect : Prop :=
  ∀ (s : State) (i : Instr) (rest : List HostOp), s.pending = none → s.todo = (HostStmt.command i).expand ++ rest →
    ∃ (n : Nat) (t u : State), RunsTo n s t ∧
      exec i { s with cmd := encode i, pending := some (encode i) } = .next u ∧
      t = { u with wait := 0, draws := s.draws + 1, todo := rest, responses := t.responses } ∧
      t.responses.getLast? = some { rdata := some t.statusWord, err := false }
end

