-- ==== Sys2Proof/Laws/Bytes.lean ====
section
/-! SUPPORT. Byte order: the bits and bytes of a little-endian word (R12, R53). -/

namespace Sys2Proof

/-- The first byte lies in the low eight bits, and the rest above it. -/
theorem leWord_cons (b : Byte) (bs : List Byte) : leWord (b :: bs) = b.setWidth 64 ||| leWord bs <<< 8 := by
  have h : leWord bs * (256 : Word) = leWord bs <<< 8 := by
    have : (256 : Word) = BitVec.twoPow 64 8 := by decide
    rw [this, BitVec.mul_twoPow_eq_shiftLeft]
  rw [leWord, h]
  apply BitVec.add_eq_or_of_and_eq_zero
  ext i hi
  simp only [BitVec.getElem_and, BitVec.getElem_setWidth, BitVec.getElem_shiftLeft]
  by_cases h8 : i < 8
  · simp [h8]
  · simp [BitVec.getLsbD_of_ge b i (by omega)]

/-- Bit i of a little-endian word is bit i mod 8 of byte i div 8. -/
theorem leWord_getLsbD (bs : List Byte) (i : Nat) (hi : i < 64) :
    (leWord bs).getLsbD i = (bs.getD (i / 8) 0).getLsbD (i % 8) := by
  induction bs generalizing i with
  | nil => simp [leWord]
  | cons b bs ih =>
    rw [leWord_cons, BitVec.getLsbD_or, BitVec.getLsbD_setWidth, BitVec.getLsbD_shiftLeft]
    by_cases h8 : i < 8
    · have h0 : i / 8 = 0 := by omega
      have hm : i % 8 = i := by omega
      simp [h0, hm, h8, hi]
    · obtain ⟨k, rfl⟩ : ∃ k, i = k + 8 := ⟨i - 8, by omega⟩
      have hd : (k + 8) / 8 = k / 8 + 1 := by omega
      have hm : (k + 8) % 8 = k % 8 := by omega
      simp only [hd, hm, List.getD_cons_succ, BitVec.getLsbD_of_ge b (k + 8) (by omega), Nat.add_sub_cancel]
      rw [ih k (by omega)]
      simp [hi]

/-- Bit i of byte t is bit 8t + i of the word. -/
theorem byteOf_getLsbD (w : Word) (t i : Nat) (hi : i < 8) : (byteOf w t).getLsbD i = w.getLsbD (8 * t + i) := by
  simp [byteOf, hi]

/-- Byte t of a little-endian word is its t-th byte. -/
theorem byteOf_leWord (bs : List Byte) (t : Nat) (ht : t < 8) : byteOf (leWord bs) t = bs.getD t 0 := by
  apply BitVec.eq_of_getLsbD_eq
  intro i hi
  rw [byteOf_getLsbD _ _ _ hi, leWord_getLsbD _ _ (by omega)]
  have hd : (8 * t + i) / 8 = t := by omega
  have hm : (8 * t + i) % 8 = i := by omega
  rw [hd, hm]

/-- A word is the little-endian word of its bytes. -/
@[simp] theorem leWord_wordBytes (w : Word) : leWord (wordBytes w) = w := by
  apply BitVec.eq_of_getLsbD_eq
  intro i hi
  rw [leWord_getLsbD _ _ hi]
  have ht : i / 8 < 8 := by omega
  have : (wordBytes w).getD (i / 8) 0 = byteOf w (i / 8) := by
    simp [wordBytes, List.getD, ht]
  rw [this, byteOf_getLsbD _ _ _ (by omega)]
  congr 1
  omega

@[simp] theorem wordBytes_length (w : Word) : (wordBytes w).length = 8 := by simp [wordBytes]

/-- The little-endian word of at most eight bytes is the sum of R12. -/
theorem leWord_toNat (bs : List Byte) (h : bs.length ≤ 8) :
    (leWord bs).toNat = ∑ t ∈ Finset.range bs.length, (bs.getD t 0).toNat * 2 ^ (8 * t) ∧
    (leWord bs).toNat < 2 ^ (8 * bs.length) := by
  induction bs with
  | nil => simp [leWord]
  | cons b bs ih =>
    have hlen : bs.length ≤ 7 := by simp only [List.length_cons] at h; omega
    obtain ⟨hs, hlt⟩ := ih (by omega)
    have hpow : 2 ^ (8 * bs.length) ≤ 2 ^ 56 := Nat.pow_le_pow_right (by omega) (by omega)
    have hb : b.toNat < 256 := b.isLt
    have he : (leWord (b :: bs)).toNat = b.toNat + (leWord bs).toNat * 256 := by
      have h256 : (256 : Word).toNat = 256 := rfl
      have hle : 2 ^ (8 * bs.length) * 256 ≤ 2 ^ 64 := by omega
      rw [leWord, BitVec.toNat_add, BitVec.toNat_mul, h256, BitVec.toNat_setWidth]
      omega
    constructor
    · rw [he, List.length_cons, Finset.sum_range_succ', hs, Finset.sum_mul]
      simp only [List.getD_cons_succ, List.getD_cons_zero, Nat.mul_zero, pow_zero, Nat.mul_one]
      rw [Nat.add_comm]
      congr 1
      apply Finset.sum_congr rfl
      intro t _
      rw [Nat.mul_assoc]
      congr 1
      rw [Nat.mul_add, Nat.pow_add]
    · rw [he, List.length_cons]
      have : 2 ^ (8 * (bs.length + 1)) = 2 ^ (8 * bs.length) * 256 := by
        rw [Nat.mul_add, Nat.pow_add]
      omega

end Sys2Proof
end

