-- ==== Sys2Proof/Laws/State.lean ====
section
/-! SUPPORT. One lemma per field per update of the state: what each named update leaves in each field. -/

namespace Sys2Proof.Machine

/-! After a successful completion (`State.succeed`). -/

@[simp] theorem State.succeed_params (s : State) : s.succeed.params = s.params := (rfl)
@[simp] theorem State.succeed_cmd (s : State) : s.succeed.cmd = s.cmd := (rfl)
@[simp] theorem State.succeed_status (s : State) : s.succeed.status = s.status.complete .ok := (rfl)
@[simp] theorem State.succeed_arg0 (s : State) : s.succeed.arg0 = s.arg0 := (rfl)
@[simp] theorem State.succeed_arg1 (s : State) : s.succeed.arg1 = s.arg1 := (rfl)
@[simp] theorem State.succeed_result (s : State) : s.succeed.result = s.result := (rfl)
@[simp] theorem State.succeed_m (s : State) : s.succeed.m = s.m := (rfl)
@[simp] theorem State.succeed_k (s : State) : s.succeed.k = s.k := (rfl)
@[simp] theorem State.succeed_setbits (s : State) : s.succeed.setbits = s.setbits := (rfl)
@[simp] theorem State.succeed_msglen (s : State) : s.succeed.msglen = s.msglen := (rfl)
@[simp] theorem State.succeed_seed0 (s : State) : s.succeed.seed0 = s.seed0 := (rfl)
@[simp] theorem State.succeed_seed1 (s : State) : s.succeed.seed1 = s.seed1 := (rfl)
@[simp] theorem State.succeed_eng0 (s : State) : s.succeed.eng0 = s.eng0 := (rfl)
@[simp] theorem State.succeed_eng1 (s : State) : s.succeed.eng1 = s.eng1 := (rfl)
@[simp] theorem State.succeed_cells (s : State) : s.succeed.cells = s.cells := (rfl)
@[simp] theorem State.succeed_msgbuf (s : State) : s.succeed.msgbuf = s.msgbuf := (rfl)
@[simp] theorem State.succeed_pending (s : State) : s.succeed.pending = none := (rfl)
@[simp] theorem State.succeed_wait (s : State) : s.succeed.wait = s.wait := (rfl)
@[simp] theorem State.succeed_epoch (s : State) : s.succeed.epoch = s.epoch := (rfl)
@[simp] theorem State.succeed_draws (s : State) : s.succeed.draws = s.draws := (rfl)
@[simp] theorem State.succeed_todo (s : State) : s.succeed.todo = s.todo := (rfl)
@[simp] theorem State.succeed_responses (s : State) : s.succeed.responses = s.responses := (rfl)

/-! After an error completion (`State.raise`). -/

@[simp] theorem State.raise_params (s : State) (c : ErrCode) : (s.raise c).params = s.params := (rfl)
@[simp] theorem State.raise_cmd (s : State) (c : ErrCode) : (s.raise c).cmd = s.cmd := (rfl)
@[simp] theorem State.raise_status (s : State) (c : ErrCode) : (s.raise c).status = s.status.complete c := (rfl)
@[simp] theorem State.raise_arg0 (s : State) (c : ErrCode) : (s.raise c).arg0 = s.arg0 := (rfl)
@[simp] theorem State.raise_arg1 (s : State) (c : ErrCode) : (s.raise c).arg1 = s.arg1 := (rfl)
@[simp] theorem State.raise_result (s : State) (c : ErrCode) : (s.raise c).result = s.result := (rfl)
@[simp] theorem State.raise_m (s : State) (c : ErrCode) : (s.raise c).m = s.m := (rfl)
@[simp] theorem State.raise_k (s : State) (c : ErrCode) : (s.raise c).k = s.k := (rfl)
@[simp] theorem State.raise_setbits (s : State) (c : ErrCode) : (s.raise c).setbits = s.setbits := (rfl)
@[simp] theorem State.raise_msglen (s : State) (c : ErrCode) : (s.raise c).msglen = s.msglen := (rfl)
@[simp] theorem State.raise_seed0 (s : State) (c : ErrCode) : (s.raise c).seed0 = s.seed0 := (rfl)
@[simp] theorem State.raise_seed1 (s : State) (c : ErrCode) : (s.raise c).seed1 = s.seed1 := (rfl)
@[simp] theorem State.raise_eng0 (s : State) (c : ErrCode) : (s.raise c).eng0 = s.eng0 := (rfl)
@[simp] theorem State.raise_eng1 (s : State) (c : ErrCode) : (s.raise c).eng1 = s.eng1 := (rfl)
@[simp] theorem State.raise_cells (s : State) (c : ErrCode) : (s.raise c).cells = s.cells := (rfl)
@[simp] theorem State.raise_msgbuf (s : State) (c : ErrCode) : (s.raise c).msgbuf = s.msgbuf := (rfl)
@[simp] theorem State.raise_pending (s : State) (c : ErrCode) : (s.raise c).pending = none := (rfl)
@[simp] theorem State.raise_wait (s : State) (c : ErrCode) : (s.raise c).wait = s.wait := (rfl)
@[simp] theorem State.raise_epoch (s : State) (c : ErrCode) : (s.raise c).epoch = s.epoch := (rfl)
@[simp] theorem State.raise_draws (s : State) (c : ErrCode) : (s.raise c).draws = s.draws := (rfl)
@[simp] theorem State.raise_todo (s : State) (c : ErrCode) : (s.raise c).todo = s.todo := (rfl)
@[simp] theorem State.raise_responses (s : State) (c : ErrCode) : (s.raise c).responses = s.responses := (rfl)

/-! After a write of RESULT (`State.setResult`). -/

@[simp] theorem State.setResult_params (s : State) (r : Word) : (s.setResult r).params = s.params := (rfl)
@[simp] theorem State.setResult_cmd (s : State) (r : Word) : (s.setResult r).cmd = s.cmd := (rfl)
@[simp] theorem State.setResult_status (s : State) (r : Word) : (s.setResult r).status = s.status := (rfl)
@[simp] theorem State.setResult_arg0 (s : State) (r : Word) : (s.setResult r).arg0 = s.arg0 := (rfl)
@[simp] theorem State.setResult_arg1 (s : State) (r : Word) : (s.setResult r).arg1 = s.arg1 := (rfl)
@[simp] theorem State.setResult_result (s : State) (r : Word) : (s.setResult r).result = r := (rfl)
@[simp] theorem State.setResult_m (s : State) (r : Word) : (s.setResult r).m = s.m := (rfl)
@[simp] theorem State.setResult_k (s : State) (r : Word) : (s.setResult r).k = s.k := (rfl)
@[simp] theorem State.setResult_setbits (s : State) (r : Word) : (s.setResult r).setbits = s.setbits := (rfl)
@[simp] theorem State.setResult_msglen (s : State) (r : Word) : (s.setResult r).msglen = s.msglen := (rfl)
@[simp] theorem State.setResult_seed0 (s : State) (r : Word) : (s.setResult r).seed0 = s.seed0 := (rfl)
@[simp] theorem State.setResult_seed1 (s : State) (r : Word) : (s.setResult r).seed1 = s.seed1 := (rfl)
@[simp] theorem State.setResult_eng0 (s : State) (r : Word) : (s.setResult r).eng0 = s.eng0 := (rfl)
@[simp] theorem State.setResult_eng1 (s : State) (r : Word) : (s.setResult r).eng1 = s.eng1 := (rfl)
@[simp] theorem State.setResult_cells (s : State) (r : Word) : (s.setResult r).cells = s.cells := (rfl)
@[simp] theorem State.setResult_msgbuf (s : State) (r : Word) : (s.setResult r).msgbuf = s.msgbuf := (rfl)
@[simp] theorem State.setResult_pending (s : State) (r : Word) : (s.setResult r).pending = s.pending := (rfl)
@[simp] theorem State.setResult_wait (s : State) (r : Word) : (s.setResult r).wait = s.wait := (rfl)
@[simp] theorem State.setResult_epoch (s : State) (r : Word) : (s.setResult r).epoch = s.epoch := (rfl)
@[simp] theorem State.setResult_draws (s : State) (r : Word) : (s.setResult r).draws = s.draws := (rfl)
@[simp] theorem State.setResult_todo (s : State) (r : Word) : (s.setResult r).todo = s.todo := (rfl)
@[simp] theorem State.setResult_responses (s : State) (r : Word) : (s.setResult r).responses = s.responses := (rfl)

/-! After setting a cell (`State.setCell`). -/

@[simp] theorem State.setCell_params (s : State) (j : Nat) : (s.setCell j).params = s.params := (rfl)
@[simp] theorem State.setCell_cmd (s : State) (j : Nat) : (s.setCell j).cmd = s.cmd := (rfl)
@[simp] theorem State.setCell_status (s : State) (j : Nat) : (s.setCell j).status = s.status := (rfl)
@[simp] theorem State.setCell_arg0 (s : State) (j : Nat) : (s.setCell j).arg0 = s.arg0 := (rfl)
@[simp] theorem State.setCell_arg1 (s : State) (j : Nat) : (s.setCell j).arg1 = s.arg1 := (rfl)
@[simp] theorem State.setCell_result (s : State) (j : Nat) : (s.setCell j).result = s.result := (rfl)
@[simp] theorem State.setCell_m (s : State) (j : Nat) : (s.setCell j).m = s.m := (rfl)
@[simp] theorem State.setCell_k (s : State) (j : Nat) : (s.setCell j).k = s.k := (rfl)
@[simp] theorem State.setCell_setbits (s : State) (j : Nat) : (s.setCell j).setbits = s.setbits := (rfl)
@[simp] theorem State.setCell_msglen (s : State) (j : Nat) : (s.setCell j).msglen = s.msglen := (rfl)
@[simp] theorem State.setCell_seed0 (s : State) (j : Nat) : (s.setCell j).seed0 = s.seed0 := (rfl)
@[simp] theorem State.setCell_seed1 (s : State) (j : Nat) : (s.setCell j).seed1 = s.seed1 := (rfl)
@[simp] theorem State.setCell_eng0 (s : State) (j : Nat) : (s.setCell j).eng0 = s.eng0 := (rfl)
@[simp] theorem State.setCell_eng1 (s : State) (j : Nat) : (s.setCell j).eng1 = s.eng1 := (rfl)
@[simp] theorem State.setCell_cells (s : State) (j : Nat) :
    (s.setCell j).cells = { s.cells with ones := insertCell s.cells.ones j } := (rfl)
@[simp] theorem State.setCell_msgbuf (s : State) (j : Nat) : (s.setCell j).msgbuf = s.msgbuf := (rfl)
@[simp] theorem State.setCell_pending (s : State) (j : Nat) : (s.setCell j).pending = s.pending := (rfl)
@[simp] theorem State.setCell_wait (s : State) (j : Nat) : (s.setCell j).wait = s.wait := (rfl)
@[simp] theorem State.setCell_epoch (s : State) (j : Nat) : (s.setCell j).epoch = s.epoch := (rfl)
@[simp] theorem State.setCell_draws (s : State) (j : Nat) : (s.setCell j).draws = s.draws := (rfl)
@[simp] theorem State.setCell_todo (s : State) (j : Nat) : (s.setCell j).todo = s.todo := (rfl)
@[simp] theorem State.setCell_responses (s : State) (j : Nat) : (s.setCell j).responses = s.responses := (rfl)

/-! After clearing the cells (`State.clearCells`). -/

@[simp] theorem State.clearCells_params (s : State) : s.clearCells.params = s.params := (rfl)
@[simp] theorem State.clearCells_cmd (s : State) : s.clearCells.cmd = s.cmd := (rfl)
@[simp] theorem State.clearCells_status (s : State) : s.clearCells.status = s.status := (rfl)
@[simp] theorem State.clearCells_arg0 (s : State) : s.clearCells.arg0 = s.arg0 := (rfl)
@[simp] theorem State.clearCells_arg1 (s : State) : s.clearCells.arg1 = s.arg1 := (rfl)
@[simp] theorem State.clearCells_result (s : State) : s.clearCells.result = s.result := (rfl)
@[simp] theorem State.clearCells_m (s : State) : s.clearCells.m = s.m := (rfl)
@[simp] theorem State.clearCells_k (s : State) : s.clearCells.k = s.k := (rfl)
@[simp] theorem State.clearCells_setbits (s : State) : s.clearCells.setbits = 0 := (rfl)
@[simp] theorem State.clearCells_msglen (s : State) : s.clearCells.msglen = s.msglen := (rfl)
@[simp] theorem State.clearCells_seed0 (s : State) : s.clearCells.seed0 = s.seed0 := (rfl)
@[simp] theorem State.clearCells_seed1 (s : State) : s.clearCells.seed1 = s.seed1 := (rfl)
@[simp] theorem State.clearCells_eng0 (s : State) : s.clearCells.eng0 = s.eng0 := (rfl)
@[simp] theorem State.clearCells_eng1 (s : State) : s.clearCells.eng1 = s.eng1 := (rfl)
@[simp] theorem State.clearCells_cells (s : State) : s.clearCells.cells = { cleared := true, ones := [] } := (rfl)
@[simp] theorem State.clearCells_msgbuf (s : State) : s.clearCells.msgbuf = s.msgbuf := (rfl)
@[simp] theorem State.clearCells_pending (s : State) : s.clearCells.pending = s.pending := (rfl)
@[simp] theorem State.clearCells_wait (s : State) : s.clearCells.wait = s.wait := (rfl)
@[simp] theorem State.clearCells_epoch (s : State) : s.clearCells.epoch = s.epoch := (rfl)
@[simp] theorem State.clearCells_draws (s : State) : s.clearCells.draws = s.draws := (rfl)
@[simp] theorem State.clearCells_todo (s : State) : s.clearCells.todo = s.todo := (rfl)
@[simp] theorem State.clearCells_responses (s : State) : s.clearCells.responses = s.responses := (rfl)

/-! After replacing an engine's words (`State.setEngine`). -/

@[simp] theorem State.setEngine_params (s : State) (e : EngineSel) (h : EngineWords) :
    (s.setEngine e h).params = s.params := by cases e <;> rfl
@[simp] theorem State.setEngine_cmd (s : State) (e : EngineSel) (h : EngineWords) :
    (s.setEngine e h).cmd = s.cmd := by cases e <;> rfl
@[simp] theorem State.setEngine_status (s : State) (e : EngineSel) (h : EngineWords) :
    (s.setEngine e h).status = s.status := by cases e <;> rfl
@[simp] theorem State.setEngine_arg0 (s : State) (e : EngineSel) (h : EngineWords) :
    (s.setEngine e h).arg0 = s.arg0 := by cases e <;> rfl
@[simp] theorem State.setEngine_arg1 (s : State) (e : EngineSel) (h : EngineWords) :
    (s.setEngine e h).arg1 = s.arg1 := by cases e <;> rfl
@[simp] theorem State.setEngine_result (s : State) (e : EngineSel) (h : EngineWords) :
    (s.setEngine e h).result = s.result := by cases e <;> rfl
@[simp] theorem State.setEngine_m (s : State) (e : EngineSel) (h : EngineWords) :
    (s.setEngine e h).m = s.m := by cases e <;> rfl
@[simp] theorem State.setEngine_k (s : State) (e : EngineSel) (h : EngineWords) :
    (s.setEngine e h).k = s.k := by cases e <;> rfl
@[simp] theorem State.setEngine_setbits (s : State) (e : EngineSel) (h : EngineWords) :
    (s.setEngine e h).setbits = s.setbits := by cases e <;> rfl
@[simp] theorem State.setEngine_msglen (s : State) (e : EngineSel) (h : EngineWords) :
    (s.setEngine e h).msglen = s.msglen := by cases e <;> rfl
@[simp] theorem State.setEngine_seed0 (s : State) (e : EngineSel) (h : EngineWords) :
    (s.setEngine e h).seed0 = s.seed0 := by cases e <;> rfl
@[simp] theorem State.setEngine_seed1 (s : State) (e : EngineSel) (h : EngineWords) :
    (s.setEngine e h).seed1 = s.seed1 := by cases e <;> rfl
@[simp] theorem State.setEngine_eng0 (s : State) (e : EngineSel) (h : EngineWords) :
    (s.setEngine e h).eng0 = if e = .e0 then h else s.eng0 := by cases e <;> rfl
@[simp] theorem State.setEngine_eng1 (s : State) (e : EngineSel) (h : EngineWords) :
    (s.setEngine e h).eng1 = if e = .e1 then h else s.eng1 := by cases e <;> rfl
@[simp] theorem State.setEngine_cells (s : State) (e : EngineSel) (h : EngineWords) :
    (s.setEngine e h).cells = s.cells := by cases e <;> rfl
@[simp] theorem State.setEngine_msgbuf (s : State) (e : EngineSel) (h : EngineWords) :
    (s.setEngine e h).msgbuf = s.msgbuf := by cases e <;> rfl
@[simp] theorem State.setEngine_pending (s : State) (e : EngineSel) (h : EngineWords) :
    (s.setEngine e h).pending = s.pending := by cases e <;> rfl
@[simp] theorem State.setEngine_wait (s : State) (e : EngineSel) (h : EngineWords) :
    (s.setEngine e h).wait = s.wait := by cases e <;> rfl
@[simp] theorem State.setEngine_epoch (s : State) (e : EngineSel) (h : EngineWords) :
    (s.setEngine e h).epoch = s.epoch := by cases e <;> rfl
@[simp] theorem State.setEngine_draws (s : State) (e : EngineSel) (h : EngineWords) :
    (s.setEngine e h).draws = s.draws := by cases e <;> rfl
@[simp] theorem State.setEngine_todo (s : State) (e : EngineSel) (h : EngineWords) :
    (s.setEngine e h).todo = s.todo := by cases e <;> rfl
@[simp] theorem State.setEngine_responses (s : State) (e : EngineSel) (h : EngineWords) :
    (s.setEngine e h).responses = s.responses := by cases e <;> rfl

/-! After an engine reset (`State.seedEngine`). -/

@[simp] theorem State.seedEngine_params (s : State) (e : EngineSel) :
    (s.seedEngine e).params = s.params := by cases e <;> rfl
@[simp] theorem State.seedEngine_cmd (s : State) (e : EngineSel) : (s.seedEngine e).cmd = s.cmd := by cases e <;> rfl
@[simp] theorem State.seedEngine_status (s : State) (e : EngineSel) :
    (s.seedEngine e).status = s.status := by cases e <;> rfl
@[simp] theorem State.seedEngine_arg0 (s : State) (e : EngineSel) :
    (s.seedEngine e).arg0 = s.arg0 := by cases e <;> rfl
@[simp] theorem State.seedEngine_arg1 (s : State) (e : EngineSel) :
    (s.seedEngine e).arg1 = s.arg1 := by cases e <;> rfl
@[simp] theorem State.seedEngine_result (s : State) (e : EngineSel) :
    (s.seedEngine e).result = s.result := by cases e <;> rfl
@[simp] theorem State.seedEngine_m (s : State) (e : EngineSel) : (s.seedEngine e).m = s.m := by cases e <;> rfl
@[simp] theorem State.seedEngine_k (s : State) (e : EngineSel) : (s.seedEngine e).k = s.k := by cases e <;> rfl
@[simp] theorem State.seedEngine_setbits (s : State) (e : EngineSel) :
    (s.seedEngine e).setbits = s.setbits := by cases e <;> rfl
@[simp] theorem State.seedEngine_msglen (s : State) (e : EngineSel) :
    (s.seedEngine e).msglen = s.msglen := by cases e <;> rfl
@[simp] theorem State.seedEngine_seed0 (s : State) (e : EngineSel) :
    (s.seedEngine e).seed0 = s.seed0 := by cases e <;> rfl
@[simp] theorem State.seedEngine_seed1 (s : State) (e : EngineSel) :
    (s.seedEngine e).seed1 = s.seed1 := by cases e <;> rfl
@[simp] theorem State.seedEngine_eng0 (s : State) (e : EngineSel) :
    (s.seedEngine e).eng0 = if e = .e0 then { h0 := s.seed0, h1 := s.seed0 } else s.eng0 := by cases e <;> rfl
@[simp] theorem State.seedEngine_eng1 (s : State) (e : EngineSel) :
    (s.seedEngine e).eng1 = if e = .e1 then { h0 := s.seed1, h1 := s.seed1 } else s.eng1 := by cases e <;> rfl
@[simp] theorem State.seedEngine_cells (s : State) (e : EngineSel) :
    (s.seedEngine e).cells = s.cells := by cases e <;> rfl
@[simp] theorem State.seedEngine_msgbuf (s : State) (e : EngineSel) :
    (s.seedEngine e).msgbuf = s.msgbuf := by cases e <;> rfl
@[simp] theorem State.seedEngine_pending (s : State) (e : EngineSel) :
    (s.seedEngine e).pending = s.pending := by cases e <;> rfl
@[simp] theorem State.seedEngine_wait (s : State) (e : EngineSel) :
    (s.seedEngine e).wait = s.wait := by cases e <;> rfl
@[simp] theorem State.seedEngine_epoch (s : State) (e : EngineSel) :
    (s.seedEngine e).epoch = s.epoch := by cases e <;> rfl
@[simp] theorem State.seedEngine_draws (s : State) (e : EngineSel) :
    (s.seedEngine e).draws = s.draws := by cases e <;> rfl
@[simp] theorem State.seedEngine_todo (s : State) (e : EngineSel) :
    (s.seedEngine e).todo = s.todo := by cases e <;> rfl
@[simp] theorem State.seedEngine_responses (s : State) (e : EngineSel) :
    (s.seedEngine e).responses = s.responses := by cases e <;> rfl

/-! After storing a message-buffer word (`State.writeMsgWord`). -/

@[simp] theorem State.writeMsgWord_params (s : State) (w : Nat) (v : Word) :
    (s.writeMsgWord w v).params = s.params := (rfl)
@[simp] theorem State.writeMsgWord_cmd (s : State) (w : Nat) (v : Word) : (s.writeMsgWord w v).cmd = s.cmd := (rfl)
@[simp] theorem State.writeMsgWord_status (s : State) (w : Nat) (v : Word) :
    (s.writeMsgWord w v).status = s.status := (rfl)
@[simp] theorem State.writeMsgWord_arg0 (s : State) (w : Nat) (v : Word) : (s.writeMsgWord w v).arg0 = s.arg0 := (rfl)
@[simp] theorem State.writeMsgWord_arg1 (s : State) (w : Nat) (v : Word) : (s.writeMsgWord w v).arg1 = s.arg1 := (rfl)
@[simp] theorem State.writeMsgWord_result (s : State) (w : Nat) (v : Word) :
    (s.writeMsgWord w v).result = s.result := (rfl)
@[simp] theorem State.writeMsgWord_m (s : State) (w : Nat) (v : Word) : (s.writeMsgWord w v).m = s.m := (rfl)
@[simp] theorem State.writeMsgWord_k (s : State) (w : Nat) (v : Word) : (s.writeMsgWord w v).k = s.k := (rfl)
@[simp] theorem State.writeMsgWord_setbits (s : State) (w : Nat) (v : Word) :
    (s.writeMsgWord w v).setbits = s.setbits := (rfl)
@[simp] theorem State.writeMsgWord_msglen (s : State) (w : Nat) (v : Word) :
    (s.writeMsgWord w v).msglen = s.msglen := (rfl)
@[simp] theorem State.writeMsgWord_seed0 (s : State) (w : Nat) (v : Word) :
    (s.writeMsgWord w v).seed0 = s.seed0 := (rfl)
@[simp] theorem State.writeMsgWord_seed1 (s : State) (w : Nat) (v : Word) :
    (s.writeMsgWord w v).seed1 = s.seed1 := (rfl)
@[simp] theorem State.writeMsgWord_eng0 (s : State) (w : Nat) (v : Word) : (s.writeMsgWord w v).eng0 = s.eng0 := (rfl)
@[simp] theorem State.writeMsgWord_eng1 (s : State) (w : Nat) (v : Word) : (s.writeMsgWord w v).eng1 = s.eng1 := (rfl)
@[simp] theorem State.writeMsgWord_cells (s : State) (w : Nat) (v : Word) :
    (s.writeMsgWord w v).cells = s.cells := (rfl)
@[simp] theorem State.writeMsgWord_msgbuf (s : State) (w : Nat) (v : Word) :
    (s.writeMsgWord w v).msgbuf = s.msgbuf.writeWord (8 * w) v := (rfl)
@[simp] theorem State.writeMsgWord_pending (s : State) (w : Nat) (v : Word) :
    (s.writeMsgWord w v).pending = s.pending := (rfl)
@[simp] theorem State.writeMsgWord_wait (s : State) (w : Nat) (v : Word) : (s.writeMsgWord w v).wait = s.wait := (rfl)
@[simp] theorem State.writeMsgWord_epoch (s : State) (w : Nat) (v : Word) :
    (s.writeMsgWord w v).epoch = s.epoch := (rfl)
@[simp] theorem State.writeMsgWord_draws (s : State) (w : Nat) (v : Word) :
    (s.writeMsgWord w v).draws = s.draws := (rfl)
@[simp] theorem State.writeMsgWord_todo (s : State) (w : Nat) (v : Word) : (s.writeMsgWord w v).todo = s.todo := (rfl)
@[simp] theorem State.writeMsgWord_responses (s : State) (w : Nat) (v : Word) :
    (s.writeMsgWord w v).responses = s.responses := (rfl)

/-! After a bus response (`State.respond`). -/

@[simp] theorem State.respond_params (s : State) (r : BusResponse) : (s.respond r).params = s.params := (rfl)
@[simp] theorem State.respond_cmd (s : State) (r : BusResponse) : (s.respond r).cmd = s.cmd := (rfl)
@[simp] theorem State.respond_status (s : State) (r : BusResponse) : (s.respond r).status = s.status := (rfl)
@[simp] theorem State.respond_arg0 (s : State) (r : BusResponse) : (s.respond r).arg0 = s.arg0 := (rfl)
@[simp] theorem State.respond_arg1 (s : State) (r : BusResponse) : (s.respond r).arg1 = s.arg1 := (rfl)
@[simp] theorem State.respond_result (s : State) (r : BusResponse) : (s.respond r).result = s.result := (rfl)
@[simp] theorem State.respond_m (s : State) (r : BusResponse) : (s.respond r).m = s.m := (rfl)
@[simp] theorem State.respond_k (s : State) (r : BusResponse) : (s.respond r).k = s.k := (rfl)
@[simp] theorem State.respond_setbits (s : State) (r : BusResponse) : (s.respond r).setbits = s.setbits := (rfl)
@[simp] theorem State.respond_msglen (s : State) (r : BusResponse) : (s.respond r).msglen = s.msglen := (rfl)
@[simp] theorem State.respond_seed0 (s : State) (r : BusResponse) : (s.respond r).seed0 = s.seed0 := (rfl)
@[simp] theorem State.respond_seed1 (s : State) (r : BusResponse) : (s.respond r).seed1 = s.seed1 := (rfl)
@[simp] theorem State.respond_eng0 (s : State) (r : BusResponse) : (s.respond r).eng0 = s.eng0 := (rfl)
@[simp] theorem State.respond_eng1 (s : State) (r : BusResponse) : (s.respond r).eng1 = s.eng1 := (rfl)
@[simp] theorem State.respond_cells (s : State) (r : BusResponse) : (s.respond r).cells = s.cells := (rfl)
@[simp] theorem State.respond_msgbuf (s : State) (r : BusResponse) : (s.respond r).msgbuf = s.msgbuf := (rfl)
@[simp] theorem State.respond_pending (s : State) (r : BusResponse) : (s.respond r).pending = s.pending := (rfl)
@[simp] theorem State.respond_wait (s : State) (r : BusResponse) : (s.respond r).wait = s.wait := (rfl)
@[simp] theorem State.respond_epoch (s : State) (r : BusResponse) : (s.respond r).epoch = s.epoch := (rfl)
@[simp] theorem State.respond_draws (s : State) (r : BusResponse) : (s.respond r).draws = s.draws := (rfl)
@[simp] theorem State.respond_todo (s : State) (r : BusResponse) : (s.respond r).todo = s.todo := (rfl)
@[simp] theorem State.respond_responses (s : State) (r : BusResponse) :
    (s.respond r).responses = s.responses ++ [r] := (rfl)

/-! After the acceptance of a command word (`State.accept`). -/

@[simp] theorem State.accept_params (s : State) (w : Word) : (s.accept w).params = s.params := (rfl)
@[simp] theorem State.accept_cmd (s : State) (w : Word) : (s.accept w).cmd = w := (rfl)
@[simp] theorem State.accept_status (s : State) (w : Word) : (s.accept w).status = s.status := (rfl)
@[simp] theorem State.accept_arg0 (s : State) (w : Word) : (s.accept w).arg0 = s.arg0 := (rfl)
@[simp] theorem State.accept_arg1 (s : State) (w : Word) : (s.accept w).arg1 = s.arg1 := (rfl)
@[simp] theorem State.accept_result (s : State) (w : Word) : (s.accept w).result = s.result := (rfl)
@[simp] theorem State.accept_m (s : State) (w : Word) : (s.accept w).m = s.m := (rfl)
@[simp] theorem State.accept_k (s : State) (w : Word) : (s.accept w).k = s.k := (rfl)
@[simp] theorem State.accept_setbits (s : State) (w : Word) : (s.accept w).setbits = s.setbits := (rfl)
@[simp] theorem State.accept_msglen (s : State) (w : Word) : (s.accept w).msglen = s.msglen := (rfl)
@[simp] theorem State.accept_seed0 (s : State) (w : Word) : (s.accept w).seed0 = s.seed0 := (rfl)
@[simp] theorem State.accept_seed1 (s : State) (w : Word) : (s.accept w).seed1 = s.seed1 := (rfl)
@[simp] theorem State.accept_eng0 (s : State) (w : Word) : (s.accept w).eng0 = s.eng0 := (rfl)
@[simp] theorem State.accept_eng1 (s : State) (w : Word) : (s.accept w).eng1 = s.eng1 := (rfl)
@[simp] theorem State.accept_cells (s : State) (w : Word) : (s.accept w).cells = s.cells := (rfl)
@[simp] theorem State.accept_msgbuf (s : State) (w : Word) : (s.accept w).msgbuf = s.msgbuf := (rfl)
@[simp] theorem State.accept_pending (s : State) (w : Word) : (s.accept w).pending = some w := (rfl)
@[simp] theorem State.accept_wait (s : State) (w : Word) : (s.accept w).wait = Config.latency s.draws := (rfl)
@[simp] theorem State.accept_epoch (s : State) (w : Word) : (s.accept w).epoch = s.epoch := (rfl)
@[simp] theorem State.accept_draws (s : State) (w : Word) : (s.accept w).draws = s.draws + 1 := (rfl)
@[simp] theorem State.accept_todo (s : State) (w : Word) : (s.accept w).todo = s.todo := (rfl)
@[simp] theorem State.accept_responses (s : State) (w : Word) : (s.accept w).responses = s.responses := (rfl)

end Sys2Proof.Machine
end

