-- ==== Sys2Proof/Laws/Ops.lean ====
section
/-! SUPPORT. The shared operations on the message buffer and the bit-vector cells: what they change, and that they
keep the canonical forms. -/

namespace Sys2Proof.Machine

/-! ### The message buffer -/

/-- A byte read after a write: the byte written at that place, and what was there before at any other. -/
@[simp] theorem Memory.get?_write (mem : Memory) (a b : Nat) (v : Byte) :
    (mem.write a v).get? b = if b = a then some v else mem.get? b := by
  induction mem with
  | nil => simp [Memory.write, Memory.get?]
  | cons c rest ih =>
    obtain ⟨k, x⟩ := c
    simp only [Memory.write]
    split
    · simp [Memory.get?]
    · split
      · subst_vars; simp only [Memory.get?]; split <;> simp_all
      · simp only [Memory.get?, ih]
        by_cases hb : b = k
        · subst hb
          simp [show ¬ b = a by omega]
        · simp [hb]

/-- A write adds no position but its own. -/
theorem Memory.mem_write {mem : Memory} {a : Nat} {v : Byte} {c : Host.Cell} (h : c ∈ mem.write a v) :
    c = (a, v) ∨ c ∈ mem := by
  induction mem with
  | nil => simpa [Memory.write] using h
  | cons d rest ih =>
    obtain ⟨k, x⟩ := d
    simp only [Memory.write] at h
    split at h
    · simpa using h
    · split at h
      · simp only [List.mem_cons] at h ⊢; tauto
      · simp only [List.mem_cons] at h ⊢
        rcases h with h | h
        · exact .inr (.inl h)
        · rcases ih h with h | h
          · exact .inl h
          · exact .inr (.inr h)

/-- A write keeps the canonical form. -/
theorem Memory.write_wf {mem : Memory} (h : mem.wf) (a : Nat) (v : Byte) : (mem.write a v).wf := by
  induction mem with
  | nil => simp [Memory.write, Memory.wf]
  | cons d rest ih =>
    obtain ⟨k, x⟩ := d
    obtain ⟨h1, h2⟩ := List.pairwise_cons.mp h
    simp only [Memory.write]
    split
    · refine List.pairwise_cons.mpr ⟨fun c hc => ?_, h⟩
      rcases List.mem_cons.mp hc with rfl | hc
      · assumption
      · have := h1 c hc; dsimp only at this ⊢; omega
    · split
      · refine List.pairwise_cons.mpr ⟨fun c hc => ?_, h2⟩
        have := h1 c hc; dsimp only at this ⊢; omega
      · refine List.pairwise_cons.mpr ⟨fun c hc => ?_, ih h2⟩
        rcases Memory.mem_write hc with rfl | hc
        · dsimp only; omega
        · exact h1 c hc

/-- A byte that is listed reads as itself. -/
theorem Memory.get?_of_mem {mem : Memory} (h : mem.wf) {a : Nat} {v : Byte} (hc : (a, v) ∈ mem) :
    mem.get? a = some v := by
  induction mem with
  | nil => simp at hc
  | cons d rest ih =>
    obtain ⟨k, x⟩ := d
    obtain ⟨h1, h2⟩ := List.pairwise_cons.mp h
    rcases List.mem_cons.mp hc with heq | hc
    · obtain ⟨rfl, rfl⟩ := Prod.mk.injEq .. ▸ heq
      simp [Memory.get?]
    · have := h1 _ hc
      dsimp only at this
      rw [Memory.get?, if_neg (by omega), ih h2 hc]

/-- A byte that reads as written is listed. -/
theorem Memory.mem_of_get? {mem : Memory} {a : Nat} {v : Byte} (h : mem.get? a = some v) : (a, v) ∈ mem := by
  induction mem with
  | nil => simp [Memory.get?] at h
  | cons d rest ih =>
    obtain ⟨k, x⟩ := d
    simp only [Memory.get?] at h
    split at h
    · simp_all
    · exact List.mem_cons_of_mem _ (ih h)

/-- Two memories in canonical form that read the same at every position are equal. -/
theorem Memory.ext_of_get? {m1 m2 : Memory} (h1 : m1.wf) (h2 : m2.wf) (h : ∀ a, m1.get? a = m2.get? a) : m1 = m2 := by
  have nodup : ∀ m : Memory, m.wf → m.Nodup := fun m hm => hm.imp (fun hlt heq => by simp [heq] at hlt)
  have hmem : ∀ c, c ∈ m1 ↔ c ∈ m2 := fun c =>
    ⟨fun hc => Memory.mem_of_get? (h c.1 ▸ Memory.get?_of_mem h1 hc),
     fun hc => Memory.mem_of_get? ((h c.1).symm ▸ Memory.get?_of_mem h2 hc)⟩
  have hperm : m1.Perm m2 := (List.perm_ext_iff_of_nodup (nodup _ h1) (nodup _ h2)).mpr hmem
  exact hperm.eq_of_pairwise (fun a b _ _ hab hba => absurd hab (by omega)) h1 h2

/-- The eight bytes of a stored word, and what was there before everywhere else. -/
theorem Memory.get?_writeWord (mem : Memory) (a b : Nat) (v : Word) :
    (mem.writeWord a v).get? b = if a ≤ b ∧ b < a + 8 then some (byteOf v (b - a)) else mem.get? b := by
  have hr : List.range 8 = [0, 1, 2, 3, 4, 5, 6, 7] := rfl
  simp only [Memory.writeWord, hr, List.foldl_cons, List.foldl_nil, Memory.get?_write]
  by_cases h : a ≤ b ∧ b < a + 8
  · obtain ⟨t, rfl⟩ : ∃ t, b = a + t := ⟨b - a, by omega⟩
    have ht : t < 8 := by omega
    simp only [h, and_self, if_true, Nat.add_sub_cancel_left, Nat.add_right_inj]
    interval_cases t <;> simp
  · rw [if_neg h]
    repeat rw [if_neg (by omega)]

/-- Storing a word keeps the canonical form. -/
theorem Memory.writeWord_wf {mem : Memory} (h : mem.wf) (a : Nat) (v : Word) : (mem.writeWord a v).wf := by
  have hr : List.range 8 = [0, 1, 2, 3, 4, 5, 6, 7] := rfl
  simp only [Memory.writeWord, hr, List.foldl_cons, List.foldl_nil]
  repeat apply Memory.write_wf
  exact h

/-- Storing a word adds no position but its own eight. -/
theorem Memory.mem_writeWord {mem : Memory} {a : Nat} {v : Word} {c : Host.Cell} (h : c ∈ mem.writeWord a v) :
    (a ≤ c.1 ∧ c.1 < a + 8) ∨ c ∈ mem := by
  have hr : List.range 8 = [0, 1, 2, 3, 4, 5, 6, 7] := rfl
  simp only [Memory.writeWord, hr, List.foldl_cons, List.foldl_nil] at h
  repeat (rcases Memory.mem_write h with rfl | h; · left; dsimp only; omega)
  exact .inr h

/-- The reset state's message buffer is in canonical form: nothing is listed. -/
theorem Memory.reset_wf (p : Params) (epoch draws : Nat) : (State.resetWith p epoch draws).msgbuf.wf := List.Pairwise.nil

/-- Storing the same word twice is storing it once. -/
theorem Memory.writeWord_twice {mem : Memory} (h : mem.wf) (a : Nat) (v : Word) :
    (mem.writeWord a v).writeWord a v = mem.writeWord a v := by
  apply Memory.ext_of_get? (Memory.writeWord_wf (Memory.writeWord_wf h a v) a v) (Memory.writeWord_wf h a v)
  intro b
  simp only [Memory.get?_writeWord]
  split <;> rfl

/-- The message bytes after a word is stored (R57). -/
theorem State.msgByte_writeMsgWord (s : State) (w : Nat) (v : Word) (j : Nat) :
    (s.writeMsgWord w v).msgByte j = if 8 * w ≤ j ∧ j < 8 * w + 8 then byteOf v (j - 8 * w) else s.msgByte j := by
  simp only [State.msgByte, State.writeMsgWord_msgbuf, State.writeMsgWord_epoch, Memory.get?_writeWord]
  split <;> simp

/-! ### The cells -/

/-- A cell is listed after an insertion iff it is the new one or was listed. -/
@[simp] theorem mem_insertCell (xs : List Nat) (j i : Nat) : i ∈ insertCell xs j ↔ i = j ∨ i ∈ xs := by
  induction xs with
  | nil => simp [insertCell]
  | cons x xs ih =>
    simp only [insertCell]
    split
    · simp
    · split
      · subst_vars; simp
      · simp only [List.mem_cons, ih]; tauto

/-- An insertion keeps the list strictly rising. -/
theorem insertCell_wf {xs : List Nat} (h : xs.Pairwise (fun x y => x < y)) (j : Nat) :
    (insertCell xs j).Pairwise (fun x y => x < y) := by
  induction xs with
  | nil => simp [insertCell]
  | cons x xs ih =>
    obtain ⟨h1, h2⟩ := List.pairwise_cons.mp h
    simp only [insertCell]
    split
    · refine List.pairwise_cons.mpr ⟨fun c hc => ?_, h⟩
      rcases List.mem_cons.mp hc with rfl | hc
      · assumption
      · have := h1 c hc; omega
    · split
      · exact h
      · refine List.pairwise_cons.mpr ⟨fun c hc => ?_, ih h2⟩
        rcases (mem_insertCell ..).mp hc with rfl | hc
        · omega
        · exact h1 c hc

/-- Setting a cell sets that cell and no other. -/
@[simp] theorem State.bit_setCell (s : State) (j i : Nat) : (s.setCell j).bit i = (s.bit i || decide (i = j)) := by
  simp only [State.bit, State.setCell_cells, State.setCell_epoch]
  by_cases h : i = j
  · simp [h]
  · have : (insertCell s.cells.ones j).contains i = s.cells.ones.contains i := by
      rw [Bool.eq_iff_iff]; simp [h]
    rw [this]; simp [h]

/-- After the whole-structure reset every cell is 0. -/
@[simp] theorem State.bit_clearCells (s : State) (j : Nat) : s.clearCells.bit j = false := by
  simp [State.bit]

/-- The cells of a state depend on its storage and its reset count alone. -/
theorem State.bit_congr {s t : State} (hc : t.cells = s.cells) (he : t.epoch = s.epoch) (j : Nat) :
    t.bit j = s.bit j := by
  simp [State.bit, hc, he]

/-- The message bytes of a state depend on its buffer and its reset count alone. -/
theorem State.msgByte_congr {s t : State} (hm : t.msgbuf = s.msgbuf) (he : t.epoch = s.epoch) (j : Nat) :
    t.msgByte j = s.msgByte j := by
  simp [State.msgByte, hm, he]

/-- No write of an engine or of RESULT, and no completion, changes a cell. -/
@[simp] theorem State.bit_setEngine (s : State) (e : EngineSel) (h : EngineWords) (j : Nat) :
    (s.setEngine e h).bit j = s.bit j := by cases e <;> rfl

@[simp] theorem State.bit_setResult (s : State) (r : Word) (j : Nat) : (s.setResult r).bit j = s.bit j := (rfl)

@[simp] theorem State.bit_succeed (s : State) (j : Nat) : s.succeed.bit j = s.bit j := (rfl)

@[simp] theorem State.bit_raise (s : State) (c : ErrCode) (j : Nat) : (s.raise c).bit j = s.bit j := (rfl)

/-- `markCell` changes the cells and SETBITS, SETBITS by the value it returns. -/
theorem markCell_frame (j : Nat) (s : State) :
    ∃ c, markCell j s = ({ s with cells := c, setbits := s.setbits + (markCell j s).2 }, (markCell j s).2) := by
  unfold markCell
  split
  · exact ⟨s.cells, by simp⟩
  · exact ⟨_, rfl⟩

/-- `markCell` sets its cell and no other. -/
theorem markCell_bit (j : Nat) (s : State) (i : Nat) : (markCell j s).1.bit i = (s.bit i || decide (i = j)) := by
  unfold markCell
  split
  · by_cases h : i = j <;> simp_all
  · exact State.bit_setCell s j i

/-- `markCell` returns 1 if the cell was 0 and 0 if it was 1. -/
theorem markCell_value (j : Nat) (s : State) : (markCell j s).2 = if s.bit j then 0 else 1 := by
  unfold markCell
  split <;> rfl

/-- `markCell` keeps the storage's canonical form and adds no cell but its own. -/
theorem markCell_cells {j : Nat} {s : State} (h : s.cells.wf) :
    (markCell j s).1.cells.wf ∧ (markCell j s).1.cells.cleared = s.cells.cleared ∧
      ∀ i ∈ (markCell j s).1.cells.ones, i = j ∨ i ∈ s.cells.ones := by
  unfold markCell
  split
  · exact ⟨h, rfl, fun i hi => .inr hi⟩
  · exact ⟨insertCell_wf h j, rfl, fun i hi => (mem_insertCell ..).mp hi⟩

theorem markCells_cons (j : Nat) (js : List Nat) (s : State) :
    markCells (j :: js) s =
      ((markCells js (markCell j s).1).1, (markCell j s).2 + (markCells js (markCell j s).1).2) := rfl

/-- `markCells` changes the cells and SETBITS, SETBITS by the value it returns. -/
theorem markCells_frame (js : List Nat) (s : State) :
    (markCells js s).1 = { s with cells := (markCells js s).1.cells, setbits := s.setbits + (markCells js s).2 } := by
  induction js generalizing s with
  | nil => simp [markCells]
  | cons j js ih =>
    obtain ⟨c, hc⟩ := markCell_frame j s
    rw [markCells_cons, hc]
    dsimp only
    generalize (markCell j s).2 = r
    rw [ih]
    simp [BitVec.add_assoc]

/-- After `markCells` a cell is 1 iff it was or is one of the marked. -/
theorem markCells_bit (js : List Nat) (s : State) (i : Nat) :
    (markCells js s).1.bit i = true ↔ s.bit i = true ∨ i ∈ js := by
  induction js generalizing s with
  | nil => simp [markCells]
  | cons j js ih =>
    rw [markCells_cons, ih, markCell_bit]
    simp only [Bool.or_eq_true, decide_eq_true_eq, List.mem_cons]
    tauto

/-- `markCells` returns the number of cells that changed. -/
theorem markCells_value (js : List Nat) (s : State) :
    (markCells js s).2 = BitVec.ofNat 64 (js.toFinset.filter (fun j => s.bit j = false)).card := by
  induction js generalizing s with
  | nil => simp [markCells]
  | cons j js ih =>
    rw [markCells_cons, ih, markCell_value]
    have hset : js.toFinset.filter (fun i => (markCell j s).1.bit i = false) =
        (js.toFinset.filter (fun i => s.bit i = false)).erase j := by
      ext i
      simp only [Finset.mem_filter, Finset.mem_erase, markCell_bit, Bool.or_eq_false_iff, decide_eq_false_iff_not]
      tauto
    rw [hset, List.toFinset_cons, Finset.filter_insert]
    cases hj : s.bit j with
    | true =>
      simp only [Bool.true_eq_false, if_false, if_true]
      rw [Finset.erase_eq_of_notMem (by simp [hj]), zero_add]
    | false =>
      simp only [if_true, Bool.false_eq_true, if_false]
      have hins : ∀ F : Finset Nat, (insert j F).card = (F.erase j).card + 1 := fun F => by
        rw [← Finset.card_insert_of_notMem (Finset.notMem_erase j F)]
        congr 1
        ext i
        simp only [Finset.mem_insert, Finset.mem_erase]
        tauto
      rw [hins, BitVec.ofNat_add, add_comm]
      rfl

/-- The count of R107 as a set's size. -/
theorem State.countCells_eq_card (s : State) (n : Nat) :
    s.countCells n = ((Finset.range n).filter (fun j => s.bit j = true)).card := by
  induction n with
  | zero => simp [State.countCells]
  | succ n ih =>
    rw [State.countCells, ih, Finset.range_add_one, Finset.filter_insert]
    cases h : s.bit n with
    | true => rw [if_pos rfl, Finset.card_insert_of_notMem (by simp)]; rfl
    | false => simp

/-- The count is at most the number of cells counted. -/
theorem State.countCells_le (s : State) (n : Nat) : s.countCells n ≤ n := by
  induction n with
  | zero => simp [State.countCells]
  | succ n ih =>
    have := Bool.toNat_le (s.bit n)
    simp only [State.countCells]
    omega

/-- The count depends on the cells alone. -/
theorem State.countCells_congr {s t : State} {n : Nat} (h : ∀ j, j < n → t.bit j = s.bit j) :
    t.countCells n = s.countCells n := by
  induction n with
  | zero => rfl
  | succ n ih =>
    rw [State.countCells, State.countCells, h n (by omega), ih (fun j hj => h j (by omega))]

/-- Bit t of BITVEC word w (R58). -/
theorem State.bitWord_getLsbD (s : State) (w t : Nat) (ht : t < 64) :
    (s.bitWord w).getLsbD t = (s.bit (64 * w + t) && decide (64 * w + t < s.m.toNat)) := by
  have key : ∀ (l : List Nat), (l.foldr (fun t acc => if s.bit (64 * w + t) && decide (64 * w + t < s.m.toNat) then
      acc ||| BitVec.twoPow 64 t else acc) (0 : Word)).getLsbD t =
      (decide (t ∈ l) && (s.bit (64 * w + t) && decide (64 * w + t < s.m.toNat))) := by
    intro l
    induction l with
    | nil => simp
    | cons x l ih =>
      rw [List.foldr_cons]
      by_cases hx : x = t
      · subst hx
        split
        · next h => simp [h, ht]
        · next h => rw [ih]; simp [Bool.eq_false_iff.mpr h]
      · have : decide (t ∈ x :: l) = decide (t ∈ l) := by simp [Ne.symm hx]
        rw [this]
        split
        · rw [BitVec.getLsbD_or, ih, BitVec.getLsbD_twoPow]
          simp [hx]
        · exact ih
  rw [State.bitWord, key]
  simp [ht]

end Sys2Proof.Machine
end

