-- ==== Sys2Proof/Laws/Bus.lean ====
section
/-! SUPPORT. The host interface: where an offset points, and all that a host access or a turn of the host can do. -/

namespace Sys2Proof.Machine

/-- Every register is found at its offset, whatever the parameters (R18, R48). -/
theorem regionAt_offset (p : Params) (r : Reg) : regionAt p r.offset = .reg r := by
  have h1 : ¬ (msgbufOffset ≤ r.offset ∧ r.offset < msgbufOffset + p.msgmax) := by
    have : r.offset < msgbufOffset := by cases r <;> decide
    omega
  have h2 : ¬ (bitvecOffset ≤ r.offset ∧ r.offset < bitvecOffset + p.mmax / 8) := by
    have : r.offset < bitvecOffset := by cases r <;> decide
    omega
  rw [regionAt, if_neg h1, if_neg h2]
  cases r <;> rfl

/-- A register is found at no offset but its own (R18). -/
theorem regionAt_eq_reg {p : Params} {o : Nat} {r : Reg} (h : regionAt p o = .reg r) : o = r.offset := by
  unfold regionAt at h
  split at h
  · simp at h
  · split at h
    · simp at h
    · split at h
      · next r' hr =>
        obtain rfl : r' = r := by simpa using h
        have := List.find?_some hr
        simpa using (beq_iff_eq.mp this).symm
      · simp at h

/-- An offset in the MSGBUF window (R48, R57). -/
theorem regionAt_msgWord {p : Params} {o : Nat} (h : msgbufOffset ≤ o ∧ o < msgbufOffset + p.msgmax) :
    regionAt p o = .msgWord ((o - msgbufOffset) / 8) := if_pos h

/-- A MSGBUF word is found only in its window (R48, R57). -/
theorem regionAt_eq_msgWord {p : Params} {o w : Nat} (h : regionAt p o = .msgWord w) :
    msgbufOffset ≤ o ∧ o < msgbufOffset + p.msgmax ∧ w = (o - msgbufOffset) / 8 := by
  unfold regionAt at h
  split at h
  · next hw => exact ⟨hw.1, hw.2, by simpa using h.symm⟩
  · split at h
    · simp at h
    · split at h <;> simp at h

/-- An offset in the BITVEC window of a legal block (R48, R58). -/
theorem regionAt_bitWord {p : Params} {o : Nat} (hp : p.Legal)
    (h : bitvecOffset ≤ o ∧ o < bitvecOffset + p.mmax / 8) : regionAt p o = .bitWord ((o - bitvecOffset) / 8) := by
  have h1 : ¬ (msgbufOffset ≤ o ∧ o < msgbufOffset + p.msgmax) := by
    simp only [msgbufOffset, bitvecOffset] at *
    omega
  rw [regionAt, if_neg h1, if_pos h]

/-- A BITVEC word is found only in its window (R48, R58). -/
theorem regionAt_eq_bitWord {p : Params} {o w : Nat} (h : regionAt p o = .bitWord w) :
    bitvecOffset ≤ o ∧ o < bitvecOffset + p.mmax / 8 := by
  unfold regionAt at h
  split at h
  · simp at h
  · split at h
    · assumption
    · split at h <;> simp at h

/-- An offset outside the registers and both windows is reserved (R48). -/
theorem regionAt_reserved {p : Params} {o : Nat} (h1 : ¬ (msgbufOffset ≤ o ∧ o < msgbufOffset + p.msgmax))
    (h2 : ¬ (bitvecOffset ≤ o ∧ o < bitvecOffset + p.mmax / 8)) (h3 : 0x98 ≤ o) : regionAt p o = .reserved := by
  rw [regionAt, if_neg h1, if_neg h2]
  have : allRegs.find? (fun r => r.offset == o) = none := by
    rw [List.find?_eq_none]
    intro r _ hr
    have hlt : r.offset < 0x98 := by cases r <;> decide
    have := beq_iff_eq.mp hr
    omega
  rw [this]

/-- All that a read can do: answer, and take a draw where the location is volatile and the block busy (R56, R64). -/
theorem serve_read (s : State) (a : BitVec 21) :
    serve (.read a) s =
      if a.toNat % 8 = 0 then
        if s.busy = true ∧ (regionAt s.params a.toNat).volatile = true then
          ({ s with draws := s.draws + 1 }).respond { rdata := some (Config.volatileRead s.draws), err := false }
        else s.respond { rdata := some (s.peek (regionAt s.params a.toNat)), err := false }
      else s.respond { rdata := some 0, err := true } := by
  unfold serve BusRequest.wellFormed memRead
  by_cases h : a.toNat % 8 = 0
  · by_cases hv : s.busy = true ∧ (regionAt s.params a.toNat).volatile = true
    · simp [h, hv]
    · have hf : (s.busy && (regionAt s.params a.toNat).volatile) = false := by
        rw [Bool.eq_false_iff]; simpa using hv
      simp [h, hv, hf]
  · simp [h, busFault]

/-- All that a write can do: nothing if it is malformed, set OVR while the block is busy, and otherwise write its
location (R50, R65). -/
theorem serve_write (s : State) (a : BitVec 21) (strb : BitVec 8) (v : Word) :
    serve (.write a strb v) s =
      if a.toNat % 8 = 0 ∧ strb = 0xFF then
        if s.busy = true then
          ({ s with status := s.status.dropWrite }).respond { rdata := none, err := false }
        else (s.poke (regionAt s.params a.toNat) v).respond { rdata := none, err := false }
      else s.respond { rdata := none, err := true } := by
  unfold serve BusRequest.wellFormed memWrite
  by_cases h : a.toNat % 8 = 0 ∧ strb = 0xFF
  · by_cases hb : s.busy = true
    · simp [h.1, h.2, hb]
    · simp [h.1, h.2, hb]
  · have hf : (a.toNat % 8 == 0 && strb == 0xFF#8) = false := by
      rw [Bool.eq_false_iff]; simpa using h
    simp only [hf, Bool.false_eq_true, if_false, if_neg h, busFault]

/-- All that a turn of the host can do. -/
theorem hostTurn_cases (s : State) :
    (s.todo = [] ∧ hostTurn s = s) ∨
    (∃ rest, s.todo = .hardReset :: rest ∧ hostTurn s = hardReset { s with todo := rest }) ∨
    (∃ op rest n rs, s.todo = op :: rest ∧ op ≠ .hardReset ∧
      (∀ a v, op = .request (.write a 0xFF v) → a.toNat % 8 ≠ 0) ∧
      (hostTurn s).todo = (if op = .poll ∧ s.busy = true then s.todo else rest) ∧
      hostTurn s = { s with draws := n, responses := rs, todo := (hostTurn s).todo }) ∨
    (∃ a v rest, s.todo = .request (.write a 0xFF v) :: rest ∧ a.toNat % 8 = 0 ∧ s.busy = true ∧
      hostTurn s = ({ s with todo := rest, status := s.status.dropWrite }).respond { rdata := none, err := false }) ∨
    (∃ a v rest, s.todo = .request (.write a 0xFF v) :: rest ∧ a.toNat % 8 = 0 ∧ s.busy = false ∧
      hostTurn s = (({ s with todo := rest }).poke (regionAt s.params a.toNat) v).respond
        { rdata := none, err := false }) := by
  match hs : s.todo with
  | [] => exact .inl ⟨rfl, by simp [hostTurn, hs]⟩
  | .hardReset :: rest => exact .inr (.inl ⟨rest, rfl, by simp [hostTurn, hs]⟩)
  | .poll :: rest =>
    refine .inr (.inr (.inl ⟨.poll, rest, ?_⟩))
    simp only [hostTurn, hs, serve_read]
    have hst : statusAddr.toNat = Reg.status.offset := by decide
    by_cases hb : s.busy = true
    · simp only [hb, if_true, hst, regionAt_offset]
      exact ⟨_, _, trivial, by simp, nofun, by simp [Region.volatile, Reg.volatile, Reg.offset, hs], rfl⟩
    · have hb' : ({ s with todo := rest } : State).busy = false := by simpa [State.busy] using hb
      simp only [hb, if_false, hst, regionAt_offset, hb', Bool.false_eq_true]
      exact ⟨_, _, trivial, by simp, nofun, by simp [Reg.offset], rfl⟩
  | .request (.read a) :: rest =>
    refine .inr (.inr (.inl ⟨.request (.read a), rest, ?_⟩))
    simp only [hostTurn, hs, serve_read]
    split
    · split
      · exact ⟨_, _, trivial, by simp, nofun, by simp, rfl⟩
      · exact ⟨_, _, trivial, by simp, nofun, by simp, rfl⟩
    · exact ⟨_, _, trivial, by simp, nofun, by simp, rfl⟩
  | .request (.write a strb v) :: rest =>
    have hbusy : ({ s with todo := rest } : State).busy = s.busy := rfl
    by_cases hw : a.toNat % 8 = 0 ∧ strb = 0xFF
    · obtain ⟨ha, rfl⟩ := hw
      by_cases hb : s.busy = true
      · exact .inr (.inr (.inr (.inl ⟨a, v, rest, rfl, ha, hb, by
          simp [hostTurn, hs, serve_write, ha, hbusy, hb]⟩)))
      · exact .inr (.inr (.inr (.inr ⟨a, v, rest, rfl, ha, by simpa using hb, by
          simp [hostTurn, hs, serve_write, ha, hbusy, hb]⟩)))
    · refine .inr (.inr (.inl ⟨.request (.write a strb v), rest, ?_⟩))
      simp only [hostTurn, hs, serve_write, if_neg hw]
      refine ⟨_, _, trivial, by simp, fun a' v' h ha => ?_, by simp, rfl⟩
      obtain ⟨rfl, rfl, rfl⟩ : a = a' ∧ strb = 0xFF ∧ v = v' := by simpa using h
      exact hw ⟨ha, rfl⟩

/-- All that a write of a location can do while the block is idle: nothing to the state but to the buffer, an operand
or seed register, the RW1C fields, or to accept a command. -/
theorem poke_cases (s : State) (r : Region) (v : Word) :
    s.poke r v = s ∨
    (r = .reg .cmd ∧ s.poke r v = s.accept v) ∨
    (r = .reg .status ∧ s.poke r v = { s with status := s.status.writeOneToClear v }) ∨
    (∃ w, r = .msgWord w ∧ s.poke r v = s.writeMsgWord w v) ∨
    (r = .reg .arg0 ∧ s.poke r v = { s with arg0 := v }) ∨
    (r = .reg .arg1 ∧ s.poke r v = { s with arg1 := v }) ∨
    (r = .reg .msglen ∧ s.poke r v = { s with msglen := v }) ∨
    (r = .reg .seed0 ∧ s.poke r v = { s with seed0 := v }) ∨
    (r = .reg .seed1 ∧ s.poke r v = { s with seed1 := v }) := by
  cases r with
  | reg r => cases r <;> simp [State.poke, State.writeReg]
  | msgWord w => simp [State.poke]
  | bitWord w => simp [State.poke]
  | reserved => simp [State.poke]

/-- The aperture is aligned to its size: the low 21 bits of a bus address are the offset in it (R7, R47). -/
theorem busAddress_mod (a : BitVec 21) : busAddress a % 2 ^ 21 = a.toNat := by
  unfold busAddress Config.base
  have h := a.isLt
  generalize Config.apertureNumber = n
  generalize a.toNat = k at h ⊢
  generalize 2 ^ 21 = c at h ⊢
  rw [Nat.add_comm, Nat.add_mul_mod_self_right, Nat.mod_eq_of_lt h]

/-- The aperture is the 2^21 bytes from BASE on (R47). -/
theorem busAddress_bounds (a : BitVec 21) : Config.base ≤ busAddress a ∧ busAddress a ≤ Config.base + 0x1FFFFF := by
  have := a.isLt
  simp only [busAddress]
  omega

end Sys2Proof.Machine
end

