-- ==== Sys2Proof/Laws/Pipeline.lean ====
section
/-! SUPPORT. The hash pipeline and the index function: their corner cases and the form of a message. -/

namespace Sys2Proof.Machine

/-- The key mixers map 0 to 0 (R83). -/
@[simp] theorem mixK1_zero : mixK1 0 = 0 := by decide

@[simp] theorem mixK2_zero : mixK2 0 = 0 := by decide

/-- The rotation of R10 for a fixed amount. -/
theorem rotl64_eq_rotateLeft (x : Word) (r : Nat) (h : r < 64) : rotl64 x r = x.rotateLeft r := by
  rw [rotl64, BitVec.rotateLeft_def, Nat.mod_eq_of_lt h]

@[simp] theorem message_length (s : State) : s.message.length = s.msglen.toNat := by simp [State.message]

/-- The bytes of a message are the buffer's bytes from 0 on. -/
theorem message_getElem? (s : State) (j : Nat) (h : j < s.msglen.toNat) : s.message[j]? = some (s.msgByte j) := by
  simp [State.message, h]

/-- Two messages are equal if the lengths and the bytes below the length are. -/
theorem message_congr {s t : State} (hl : t.msglen = s.msglen) (hb : ∀ j, j < s.msglen.toNat → t.msgByte j = s.msgByte j) :
    t.message = s.message := by
  rw [State.message, State.message, hl]
  exact List.map_congr_left fun j hj => hb j (List.mem_range.mp hj)

/-- The digest under a seed starts from both words at the seed (R91). -/
theorem digest_eq (seed : Word) (d : List Byte) : digest seed d = mm3 ⟨seed, seed⟩ d := rfl

/-- The tail is shorter than a block (R86). -/
theorem tailBytes_length (d : List Byte) : (tailBytes d).length = d.length % 16 := by
  rw [tailBytes, List.length_drop]
  omega

/-- Fewer than sixteen bytes hold no block (R89). -/
theorem blockLoop_short (h : EngineWords) (d : List Byte) (hd : d.length < 16) : blockLoop h d = h := by
  rw [blockLoop, Nat.div_eq_of_lt hd]
  rfl

/-- The remainder of R10. -/
theorem modWord_toNat (x m : Word) (h : m ≠ 0) : (modWord x m).toNat = x.toNat % m.toNat := by
  rw [modWord, if_neg h, BitVec.toNat_umod]

/-- A remainder lies below the modulus (R99). -/
theorem modWord_lt (x m : Word) (h : m ≠ 0) : (modWord x m).toNat < m.toNat := by
  rw [modWord_toNat x m h]
  exact Nat.mod_lt _ (Nat.pos_of_ne_zero fun h0 => h (BitVec.eq_of_toNat_eq (by simpa using h0)))

/-- The k positions are those of the iterations below k (R101). -/
@[simp] theorem mem_positions (a b k m : Word) (j : Nat) :
    j ∈ positions a b k m ↔ ∃ i, i < k.toNat ∧ j = (idx a b (BitVec.ofNat 64 i) m).toNat := by
  simp only [positions, List.mem_map, List.mem_range]
  exact ⟨fun ⟨i, h, e⟩ => ⟨i, h, e.symm⟩, fun ⟨i, h, e⟩ => ⟨i, h, e.symm⟩⟩

/-- The positions as a set. -/
theorem positions_toFinset (a b k m : Word) :
    (positions a b k m).toFinset =
      (Finset.range k.toNat).image (fun i => (idx a b (BitVec.ofNat 64 i) m).toNat) := by
  ext j
  simp only [List.mem_toFinset, mem_positions, Finset.mem_image, Finset.mem_range]
  exact ⟨fun ⟨i, h, e⟩ => ⟨i, h, e.symm⟩, fun ⟨i, h, e⟩ => ⟨i, h, e.symm⟩⟩

end Sys2Proof.Machine
end

