-- ==== Sys2Proof/Laws/Effects.lean ====
section
/-! SUPPORT. What each command's effect is, case by case of its preconditions: one lemma per case, so that no later
proof unfolds an effect. A digest is never compared by unfolding: state equal fields by these lemmas, cells by
`State.bit_congr` and messages by `message_congr`. -/

namespace Sys2Proof.Machine

variable {s : State}

/-- The checks on operands, as propositions. -/
theorem messageTooLong_iff : s.messageTooLong = true ↔ s.params.msgmax < s.msglen.toNat := by
  simp [State.messageTooLong]

theorem badGeometry_iff : s.badGeometry = true ↔
    s.arg0 = 0 ∨ s.params.mmax < s.arg0.toNat ∨ s.arg1 = 0 ∨ s.params.kmax < s.arg1.toNat := by
  simp [State.badGeometry, or_assoc]

/-- CONFIGURE (R112). -/
theorem configureEffect_bad (h : s.badGeometry = true) : configureEffect s = .error .invalidParam := if_pos h

theorem configureEffect_ok (h : s.badGeometry = false) : configureEffect s = .ok (configured s) := if_neg (by simp [h])

/-- CLEAR (R102). -/
theorem clearEffect_unconfigured (h : s.status.configured = false) : clearEffect s = .error .notConfigured :=
  if_pos (by simp [h])

theorem clearEffect_ok (h : s.status.configured = true) : clearEffect s = .ok s.clearCells := if_neg (by simp [h])

/-- HWRITE e (R89). -/
theorem hwriteEffect_long {e : EngineSel} (h : s.messageTooLong = true) : hwriteEffect e s = .error .hashWrite := if_pos h

theorem hwriteEffect_ok {e : EngineSel} (h : s.messageTooLong = false) :
    hwriteEffect e s = .ok (s.setEngine e (mm3 (s.engine e) s.message)) := if_neg (by simp [h])

/-- INDEX (R98). -/
theorem indexEffect_unconfigured (h : s.status.configured = false) : indexEffect s = .error .notConfigured :=
  if_pos (by simp [h])

theorem indexEffect_range (h : s.status.configured = true) (hr : s.k.toNat ≤ s.arg0.toNat) :
    indexEffect s = .error .range := (if_neg (by simp [h])).trans (if_pos hr)

theorem indexEffect_ok (h : s.status.configured = true) (hr : s.arg0.toNat < s.k.toNat) :
    indexEffect s = .ok (s.setResult (idx s.eng0.h0 s.eng1.h0 s.arg0 s.m)) :=
  (if_neg (by simp [h])).trans (if_neg (by omega))

/-- TEST (R104). -/
theorem testEffect_unconfigured (h : s.status.configured = false) : testEffect s = .error .notConfigured :=
  if_pos (by simp [h])

theorem testEffect_range (h : s.status.configured = true) (hr : s.m.toNat ≤ s.arg0.toNat) :
    testEffect s = .error .range := (if_neg (by simp [h])).trans (if_pos hr)

theorem testEffect_ok (h : s.status.configured = true) (hr : s.arg0.toNat < s.m.toNat) :
    testEffect s = .ok (s.setResult (if s.bit s.arg0.toNat then 1 else 0)) := by
  refine ((if_neg (by simp [h])).trans (if_neg (by omega))).trans ?_
  cases s.bit s.arg0.toNat <;> rfl

/-- MARK (R105). -/
theorem markEffect_unconfigured (h : s.status.configured = false) : markEffect s = .error .notConfigured :=
  if_pos (by simp [h])

theorem markEffect_range (h : s.status.configured = true) (hr : s.m.toNat ≤ s.arg0.toNat) :
    markEffect s = .error .range := (if_neg (by simp [h])).trans (if_pos hr)

theorem markEffect_ok (h : s.status.configured = true) (hr : s.arg0.toNat < s.m.toNat) :
    markEffect s = .ok ((markCell s.arg0.toNat s).1.setResult (markCell s.arg0.toNat s).2) :=
  (if_neg (by simp [h])).trans (if_neg (by omega))

/-- Both engines replaced, and nothing else. -/
theorem State.setEngine_both (s : State) (h0 h1 : EngineWords) :
    (s.setEngine .e0 h0).setEngine .e1 h1 = { s with eng0 := h0, eng1 := h1 } := rfl

/-- The common start of SET and INCLUDES writes the two digests and nothing else (R114, R116). -/
theorem digestBoth_eq (s : State) :
    digestBoth s = { s with eng0 := digest s.seed0 s.message, eng1 := digest s.seed1 s.message } :=
  State.setEngine_both s _ _

/-- Field by field. -/
@[simp] theorem digestBoth_eng0 (s : State) : (digestBoth s).eng0 = digest s.seed0 s.message := by rw [digestBoth_eq]
@[simp] theorem digestBoth_eng1 (s : State) : (digestBoth s).eng1 = digest s.seed1 s.message := by rw [digestBoth_eq]
@[simp] theorem digestBoth_params (s : State) : (digestBoth s).params = s.params := by rw [digestBoth_eq]
@[simp] theorem digestBoth_cmd (s : State) : (digestBoth s).cmd = s.cmd := by rw [digestBoth_eq]
@[simp] theorem digestBoth_status (s : State) : (digestBoth s).status = s.status := by rw [digestBoth_eq]
@[simp] theorem digestBoth_arg0 (s : State) : (digestBoth s).arg0 = s.arg0 := by rw [digestBoth_eq]
@[simp] theorem digestBoth_arg1 (s : State) : (digestBoth s).arg1 = s.arg1 := by rw [digestBoth_eq]
@[simp] theorem digestBoth_result (s : State) : (digestBoth s).result = s.result := by rw [digestBoth_eq]
@[simp] theorem digestBoth_m (s : State) : (digestBoth s).m = s.m := by rw [digestBoth_eq]
@[simp] theorem digestBoth_k (s : State) : (digestBoth s).k = s.k := by rw [digestBoth_eq]
@[simp] theorem digestBoth_setbits (s : State) : (digestBoth s).setbits = s.setbits := by rw [digestBoth_eq]
@[simp] theorem digestBoth_msglen (s : State) : (digestBoth s).msglen = s.msglen := by rw [digestBoth_eq]
@[simp] theorem digestBoth_seed0 (s : State) : (digestBoth s).seed0 = s.seed0 := by rw [digestBoth_eq]
@[simp] theorem digestBoth_seed1 (s : State) : (digestBoth s).seed1 = s.seed1 := by rw [digestBoth_eq]
@[simp] theorem digestBoth_cells (s : State) : (digestBoth s).cells = s.cells := by rw [digestBoth_eq]
@[simp] theorem digestBoth_msgbuf (s : State) : (digestBoth s).msgbuf = s.msgbuf := by rw [digestBoth_eq]
@[simp] theorem digestBoth_pending (s : State) : (digestBoth s).pending = s.pending := by rw [digestBoth_eq]
@[simp] theorem digestBoth_wait (s : State) : (digestBoth s).wait = s.wait := by rw [digestBoth_eq]
@[simp] theorem digestBoth_epoch (s : State) : (digestBoth s).epoch = s.epoch := by rw [digestBoth_eq]
@[simp] theorem digestBoth_draws (s : State) : (digestBoth s).draws = s.draws := by rw [digestBoth_eq]
@[simp] theorem digestBoth_todo (s : State) : (digestBoth s).todo = s.todo := by rw [digestBoth_eq]
@[simp] theorem digestBoth_responses (s : State) : (digestBoth s).responses = s.responses := by rw [digestBoth_eq]

/-- The cells are as they were while the message is digested. -/
theorem digestBoth_bit (s : State) : (digestBoth s).bit = s.bit :=
  funext fun j => State.bit_congr (digestBoth_cells s) (digestBoth_epoch s) j

/-- The positions of the message (R100, R101). -/
theorem digestBoth_enginePositions (s : State) : (digestBoth s).enginePositions =
    positions (digest s.seed0 s.message).h0 (digest s.seed1 s.message).h0 s.k s.m := by rw [digestBoth_eq]; rfl

/-- SET (R114). -/
theorem setEffect_unconfigured (h : s.status.configured = false) : setEffect s = .error .notConfigured :=
  if_pos (by simp [h])

theorem setEffect_long (h : s.status.configured = true) (hl : s.messageTooLong = true) :
    setEffect s = .error .hashWrite := (if_neg (by simp [h])).trans (if_pos hl)

theorem setEffect_ok (h : s.status.configured = true) (hl : s.messageTooLong = false) :
    setEffect s = .ok ((markCells (digestBoth s).enginePositions (digestBoth s)).1.setResult
      (markCells (digestBoth s).enginePositions (digestBoth s)).2) :=
  (if_neg (by simp [h])).trans (if_neg (by simp [hl]))

/-- INCLUDES (R116). -/
theorem includesEffect_unconfigured (h : s.status.configured = false) : includesEffect s = .error .notConfigured :=
  if_pos (by simp [h])

theorem includesEffect_long (h : s.status.configured = true) (hl : s.messageTooLong = true) :
    includesEffect s = .error .hashWrite := (if_neg (by simp [h])).trans (if_pos hl)

theorem includesEffect_ok (h : s.status.configured = true) (hl : s.messageTooLong = false) :
    includesEffect s = .ok ((digestBoth s).setResult
      (if (digestBoth s).enginePositions.all (digestBoth s).bit then 1 else 0)) :=
  (if_neg (by simp [h])).trans (if_neg (by simp [hl]))

/-- An effect that needs a configured block and one further check: its three cases. -/
theorem range_cases (m a : Word) (c : Bool) :
    c = false ∨ (c = true ∧ m.toNat ≤ a.toNat) ∨ (c = true ∧ a.toNat < m.toNat) := by
  cases c
  · exact .inl rfl
  · exact .inr ((Nat.lt_or_ge a.toNat m.toNat).elim (fun h => .inr ⟨rfl, h⟩) (fun h => .inl ⟨rfl, h⟩))

theorem long_cases (l c : Bool) : c = false ∨ (c = true ∧ l = true) ∨ (c = true ∧ l = false) := by
  cases l <;> cases c <;> simp

end Sys2Proof.Machine
end

