-- ==== Sys2Proof/Laws/Exec.lean ====
section
/-! SUPPORT. What a command's completion can do: it answers a next state, a success keeps its effect, an error keeps
none, and an effect writes no more than the fields named here. -/

namespace Sys2Proof.Machine

/-- The effect of each command, before its completion. -/
def effectOf : Instr → State → Except ErrCode State
  | .nop, s => .ok s
  | .configure, s => configureEffect s
  | .clear, s => clearEffect s
  | .hreset e, s => .ok (s.seedEngine e)
  | .hwrite e, s => hwriteEffect e s
  | .index, s => indexEffect s
  | .test, s => testEffect s
  | .mark, s => markEffect s
  | .popcnt, s => popcntEffect s
  | .set, s => setEffect s
  | .includes, s => includesEffect s

theorem exec_eq_conclude (i : Instr) (s : State) : exec i s = conclude s (effectOf i s) := by cases i <;> rfl

/-- A completion answers a next state: the successful effect, or the error. -/
theorem conclude_next (s : State) (r : Except ErrCode State) (t : State) :
    conclude s r = .next t ↔ (∃ u, r = .ok u ∧ t = u.succeed) ∨ (∃ c, r = .error c ∧ t = s.raise c) := by
  cases r <;> simp [conclude, eq_comm]

/-- `raise` in the form of R126. -/
theorem State.raise_eq (s : State) (c : ErrCode) (hc : c ≠ .ok) :
    s.raise c = { s with status := { s.status with errcode := c, sticky := true }, pending := none } := by
  simp [State.raise, Status.complete, hc]

/-- A success in the form of R27 and R28: ERRCODE takes OK and STICKY is kept. -/
theorem State.succeed_eq (s : State) :
    s.succeed = { s with status := { s.status with errcode := .ok }, pending := none } := by
  simp [State.succeed, Status.complete]

/-- A command with a successful effect completes with it. -/
theorem exec_of_ok {i : Instr} {s u : State} (h : effectOf i s = .ok u) :
    exec i s = .next { u with status := { u.status with errcode := .ok }, pending := none } := by
  rw [exec_eq_conclude, h, conclude, State.succeed_eq]

/-- A command whose effect is an error completes with that error and nothing else. -/
theorem exec_of_error {i : Instr} {s : State} {c : ErrCode} (h : effectOf i s = .error c) (hc : c ≠ .ok) :
    exec i s = .next { s with status := { s.status with errcode := c, sticky := true }, pending := none } := by
  rw [exec_eq_conclude, h, conclude, State.raise_eq s c hc]

/-- An engine's words as they are read back. -/
@[simp] theorem State.engine_setEngine (s : State) (e : EngineSel) (h : EngineWords) : (s.setEngine e h).engine e = h := by
  cases e <;> rfl

/-- The fields an effect may write, and no other: RESULT, M, K, SETBITS, the engines, the cells and CONFIGURED. -/
def writesOnlyResults (s u : State) : Prop :=
  u = { s with
    result := u.result, m := u.m, k := u.k, setbits := u.setbits, eng0 := u.eng0, eng1 := u.eng1, cells := u.cells,
    status := { s.status with configured := u.status.configured } }

theorem writesOnlyResults_refl (s : State) : writesOnlyResults s s := rfl

theorem writesOnlyResults_setEngine (s : State) (e : EngineSel) (h : EngineWords) :
    writesOnlyResults s (s.setEngine e h) := by cases e <;> rfl

theorem writesOnlyResults_clearCells (s : State) : writesOnlyResults s s.clearCells := rfl

theorem writesOnlyResults_result (s : State) (r : Word) : writesOnlyResults s (s.setResult r) := rfl

theorem writesOnlyResults_trans {s t u : State} (h1 : writesOnlyResults s t) (h2 : writesOnlyResults t u) :
    writesOnlyResults s u := by
  unfold writesOnlyResults at *
  rw [h2, h1]

theorem writesOnlyResults_configured (s : State) : writesOnlyResults s (configured s) := by
  have h : ∀ (t : State), writesOnlyResults t { t with status := { t.status with configured := true } } := fun _ => rfl
  refine writesOnlyResults_trans ?_ (h _)
  refine writesOnlyResults_trans ?_ (writesOnlyResults_setEngine _ _ _)
  refine writesOnlyResults_trans ?_ (writesOnlyResults_setEngine _ _ _)
  exact writesOnlyResults_trans (t := { s with m := s.arg0, k := s.arg1 }) rfl (writesOnlyResults_clearCells _)

theorem writesOnlyResults_digestBoth (s : State) : writesOnlyResults s (digestBoth s) :=
  writesOnlyResults_trans (writesOnlyResults_setEngine _ _ _) (writesOnlyResults_setEngine _ _ _)

theorem writesOnlyResults_markCells (js : List Nat) (s : State) : writesOnlyResults s (markCells js s).1 := by
  rw [markCells_frame]
  rfl

/-- The codes an effect can raise, and what a successful effect may write. -/
theorem effectOf_cases (i : Instr) (s : State) :
    (∃ c, effectOf i s = .error c ∧ c ≠ .ok ∧ c ≠ .illegalCmd) ∨
    ∃ u, effectOf i s = .ok u ∧ writesOnlyResults s u := by
  cases i with
  | nop => exact .inr ⟨_, rfl, writesOnlyResults_refl s⟩
  | configure =>
    cases h : s.badGeometry with
    | true => exact .inl ⟨_, configureEffect_bad h, by decide, by decide⟩
    | false => exact .inr ⟨_, configureEffect_ok h, writesOnlyResults_configured s⟩
  | clear =>
    cases h : s.status.configured with
    | false => exact .inl ⟨_, clearEffect_unconfigured h, by decide, by decide⟩
    | true => exact .inr ⟨_, clearEffect_ok h, writesOnlyResults_clearCells s⟩
  | hreset e => exact .inr ⟨_, rfl, writesOnlyResults_setEngine s e _⟩
  | hwrite e =>
    cases h : s.messageTooLong with
    | true => exact .inl ⟨_, hwriteEffect_long h, by decide, by decide⟩
    | false => exact .inr ⟨_, hwriteEffect_ok h, writesOnlyResults_setEngine s e _⟩
  | index =>
    rcases range_cases s.k s.arg0 s.status.configured with h | ⟨h, hr⟩ | ⟨h, hr⟩
    · exact .inl ⟨_, indexEffect_unconfigured h, by decide, by decide⟩
    · exact .inl ⟨_, indexEffect_range h hr, by decide, by decide⟩
    · exact .inr ⟨_, indexEffect_ok h hr, writesOnlyResults_result s _⟩
  | test =>
    rcases range_cases s.m s.arg0 s.status.configured with h | ⟨h, hr⟩ | ⟨h, hr⟩
    · exact .inl ⟨_, testEffect_unconfigured h, by decide, by decide⟩
    · exact .inl ⟨_, testEffect_range h hr, by decide, by decide⟩
    · exact .inr ⟨_, testEffect_ok h hr, writesOnlyResults_result s _⟩
  | mark =>
    rcases range_cases s.m s.arg0 s.status.configured with h | ⟨h, hr⟩ | ⟨h, hr⟩
    · exact .inl ⟨_, markEffect_unconfigured h, by decide, by decide⟩
    · exact .inl ⟨_, markEffect_range h hr, by decide, by decide⟩
    · refine .inr ⟨_, markEffect_ok h hr, writesOnlyResults_trans ?_ (writesOnlyResults_result _ _)⟩
      obtain ⟨c, hc⟩ := markCell_frame s.arg0.toNat s
      rw [hc]
      rfl
  | popcnt => exact .inr ⟨_, rfl, writesOnlyResults_result s _⟩
  | set =>
    rcases long_cases s.messageTooLong s.status.configured with h | ⟨h, hl⟩ | ⟨h, hl⟩
    · exact .inl ⟨_, setEffect_unconfigured h, by decide, by decide⟩
    · exact .inl ⟨_, setEffect_long h hl, by decide, by decide⟩
    · exact .inr ⟨_, setEffect_ok h hl, writesOnlyResults_trans (writesOnlyResults_digestBoth s)
        (writesOnlyResults_trans (writesOnlyResults_markCells _ _) (writesOnlyResults_result _ _))⟩
  | includes =>
    rcases long_cases s.messageTooLong s.status.configured with h | ⟨h, hl⟩ | ⟨h, hl⟩
    · exact .inl ⟨_, includesEffect_unconfigured h, by decide, by decide⟩
    · exact .inl ⟨_, includesEffect_long h hl, by decide, by decide⟩
    · exact .inr ⟨_, includesEffect_ok h hl,
        writesOnlyResults_trans (writesOnlyResults_digestBoth s) (writesOnlyResults_result _ _)⟩

/-- All that a command can do: end in an error that changes STATUS and BUSY alone, or succeed and write no more than
RESULT, M, K, SETBITS, the engines, the cells, CONFIGURED, ERRCODE and BUSY. -/
theorem exec_cases {i : Instr} {s t : State} (h : exec i s = .next t) :
    (∃ c, effectOf i s = .error c ∧ c ≠ .ok ∧ c ≠ .illegalCmd ∧
      t = { s with status := { s.status with errcode := c, sticky := true }, pending := none }) ∨
    (∃ u, effectOf i s = .ok u ∧ t = u.succeed ∧
      t = { s with
        result := u.result, m := u.m, k := u.k, setbits := u.setbits, eng0 := u.eng0, eng1 := u.eng1, cells := u.cells,
        status := { s.status with configured := u.status.configured, errcode := .ok }, pending := none }) := by
  rw [exec_eq_conclude, conclude_next] at h
  rcases effectOf_cases i s with ⟨c, hc, h0, h1⟩ | ⟨u, hu, hf⟩
  · rcases h with ⟨u, hu, _⟩ | ⟨c', hc', rfl⟩
    · simp [hc] at hu
    · obtain rfl : c = c' := by simpa [hc] using hc'
      exact .inl ⟨c, hc, h0, h1, State.raise_eq s c h0⟩
  · rcases h with ⟨u', hu', rfl⟩ | ⟨c, hc, _⟩
    · obtain rfl : u = u' := by simpa [hu] using hu'
      refine .inr ⟨u, hu, rfl, ?_⟩
      rw [State.succeed_eq]
      unfold writesOnlyResults at hf
      rw [hf]
    · simp [hu] at hc

end Sys2Proof.Machine
end

