-- ==== Sys2Proof/Laws/Outside.lean ====
section
/-! SUPPORT. A command's effect does not depend on what lies outside the block's data: the accepted word, the
sequencer, the latency, the draw counter and the host's side (R64, R150). -/

namespace Sys2Proof.Machine

/-- The block's data of s with all that lies outside it from t: CMD, the sequencer, the latency, the draw counter, and
the host's operations and responses. -/
def State.rehost (s t : State) : State :=
  { s with
    cmd := t.cmd, pending := t.pending, wait := t.wait, draws := t.draws, todo := t.todo, responses := t.responses }

@[simp] theorem State.rehost_params (s t : State) : (s.rehost t).params = s.params := rfl
@[simp] theorem State.rehost_cmd (s t : State) : (s.rehost t).cmd = t.cmd := rfl
@[simp] theorem State.rehost_status (s t : State) : (s.rehost t).status = s.status := rfl
@[simp] theorem State.rehost_arg0 (s t : State) : (s.rehost t).arg0 = s.arg0 := rfl
@[simp] theorem State.rehost_arg1 (s t : State) : (s.rehost t).arg1 = s.arg1 := rfl
@[simp] theorem State.rehost_result (s t : State) : (s.rehost t).result = s.result := rfl
@[simp] theorem State.rehost_m (s t : State) : (s.rehost t).m = s.m := rfl
@[simp] theorem State.rehost_k (s t : State) : (s.rehost t).k = s.k := rfl
@[simp] theorem State.rehost_setbits (s t : State) : (s.rehost t).setbits = s.setbits := rfl
@[simp] theorem State.rehost_msglen (s t : State) : (s.rehost t).msglen = s.msglen := rfl
@[simp] theorem State.rehost_seed0 (s t : State) : (s.rehost t).seed0 = s.seed0 := rfl
@[simp] theorem State.rehost_seed1 (s t : State) : (s.rehost t).seed1 = s.seed1 := rfl
@[simp] theorem State.rehost_eng0 (s t : State) : (s.rehost t).eng0 = s.eng0 := rfl
@[simp] theorem State.rehost_eng1 (s t : State) : (s.rehost t).eng1 = s.eng1 := rfl
@[simp] theorem State.rehost_cells (s t : State) : (s.rehost t).cells = s.cells := rfl
@[simp] theorem State.rehost_msgbuf (s t : State) : (s.rehost t).msgbuf = s.msgbuf := rfl
@[simp] theorem State.rehost_pending (s t : State) : (s.rehost t).pending = t.pending := rfl
@[simp] theorem State.rehost_wait (s t : State) : (s.rehost t).wait = t.wait := rfl
@[simp] theorem State.rehost_epoch (s t : State) : (s.rehost t).epoch = s.epoch := rfl
@[simp] theorem State.rehost_draws (s t : State) : (s.rehost t).draws = t.draws := rfl
@[simp] theorem State.rehost_todo (s t : State) : (s.rehost t).todo = t.todo := rfl
@[simp] theorem State.rehost_responses (s t : State) : (s.rehost t).responses = t.responses := rfl

@[simp] theorem State.rehost_bit (s t : State) : (s.rehost t).bit = s.bit := rfl
@[simp] theorem State.rehost_message (s t : State) : (s.rehost t).message = s.message := rfl
@[simp] theorem State.rehost_messageTooLong (s t : State) : (s.rehost t).messageTooLong = s.messageTooLong := rfl
@[simp] theorem State.rehost_badGeometry (s t : State) : (s.rehost t).badGeometry = s.badGeometry := rfl
@[simp] theorem State.rehost_countCells (s t : State) (n : Nat) : (s.rehost t).countCells n = s.countCells n :=
  State.countCells_congr fun _ _ => rfl
@[simp] theorem State.rehost_engine (s t : State) (e : EngineSel) : (s.rehost t).engine e = s.engine e := by
  cases e <;> rfl
@[simp] theorem State.rehost_seed (s t : State) (e : EngineSel) : (s.rehost t).seed e = s.seed e := by cases e <;> rfl

theorem State.rehost_setEngine (s t : State) (e : EngineSel) (h : EngineWords) :
    (s.rehost t).setEngine e h = (s.setEngine e h).rehost t := by cases e <;> rfl

theorem State.rehost_setResult (s t : State) (r : Word) :
    (s.rehost t).setResult r = (s.setResult r).rehost t := rfl

theorem State.rehost_clearCells (s t : State) : (s.rehost t).clearCells = s.clearCells.rehost t := rfl

theorem rehost_markCell (j : Nat) (s t : State) :
    markCell j (s.rehost t) = ((markCell j s).1.rehost t, (markCell j s).2) := by
  unfold markCell
  rw [State.rehost_bit]
  split <;> rfl

theorem rehost_markCells (js : List Nat) (s t : State) :
    markCells js (s.rehost t) = ((markCells js s).1.rehost t, (markCells js s).2) := by
  induction js generalizing s with
  | nil => rfl
  | cons j js ih => rw [markCells_cons, markCells_cons, rehost_markCell, ih]

theorem rehost_digestBoth (s t : State) : digestBoth (s.rehost t) = (digestBoth s).rehost t := by
  simp only [digestBoth, State.rehost_seed0, State.rehost_seed1, State.rehost_message, State.rehost_setEngine]

theorem rehost_enginePositions (s t : State) : (s.rehost t).enginePositions = s.enginePositions := by
  simp only [State.enginePositions, State.rehost_eng0, State.rehost_eng1, State.rehost_k, State.rehost_m]

theorem rehost_configured (s t : State) : configured (s.rehost t) = (configured s).rehost t := rfl

/-- The effect of a command on the block's data is the same whatever lies outside it. -/
theorem effectOf_rehost (i : Instr) (s t : State) :
    effectOf i (s.rehost t) = (effectOf i s).map (fun u => u.rehost t) := by
  cases i with
  | nop => rfl
  | configure =>
    simp only [effectOf]
    cases h : s.badGeometry with
    | true => rw [configureEffect_bad h, configureEffect_bad (s := s.rehost t) h]; rfl
    | false => rw [configureEffect_ok h, configureEffect_ok (s := s.rehost t) h, rehost_configured]; rfl
  | clear =>
    simp only [effectOf]
    cases h : s.status.configured with
    | false => rw [clearEffect_unconfigured h, clearEffect_unconfigured (s := s.rehost t) h]; rfl
    | true => rw [clearEffect_ok h, clearEffect_ok (s := s.rehost t) h]; rfl
  | hreset e =>
    simp only [effectOf, State.seedEngine, State.rehost_seed, State.rehost_setEngine]
    rfl
  | hwrite e =>
    simp only [effectOf]
    cases h : s.messageTooLong with
    | true => rw [hwriteEffect_long h, hwriteEffect_long (s := s.rehost t) h]; rfl
    | false =>
      rw [hwriteEffect_ok h, hwriteEffect_ok (s := s.rehost t) h, State.rehost_setEngine, State.rehost_engine,
        State.rehost_message]
      rfl
  | index =>
    simp only [effectOf]
    rcases range_cases s.k s.arg0 s.status.configured with h | ⟨h, hr⟩ | ⟨h, hr⟩
    · rw [indexEffect_unconfigured h, indexEffect_unconfigured (s := s.rehost t) h]; rfl
    · rw [indexEffect_range h hr, indexEffect_range (s := s.rehost t) h hr]; rfl
    · rw [indexEffect_ok h hr, indexEffect_ok (s := s.rehost t) h hr, State.rehost_setResult, State.rehost_eng0,
        State.rehost_eng1, State.rehost_arg0, State.rehost_m]
      rfl
  | test =>
    simp only [effectOf]
    rcases range_cases s.m s.arg0 s.status.configured with h | ⟨h, hr⟩ | ⟨h, hr⟩
    · rw [testEffect_unconfigured h, testEffect_unconfigured (s := s.rehost t) h]; rfl
    · rw [testEffect_range h hr, testEffect_range (s := s.rehost t) h hr]; rfl
    · rw [testEffect_ok h hr, testEffect_ok (s := s.rehost t) h hr]; rfl
  | mark =>
    simp only [effectOf]
    rcases range_cases s.m s.arg0 s.status.configured with h | ⟨h, hr⟩ | ⟨h, hr⟩
    · rw [markEffect_unconfigured h, markEffect_unconfigured (s := s.rehost t) h]; rfl
    · rw [markEffect_range h hr, markEffect_range (s := s.rehost t) h hr]; rfl
    · rw [markEffect_ok h hr, markEffect_ok (s := s.rehost t) h hr, rehost_markCell, State.rehost_arg0]; rfl
  | popcnt =>
    simp only [effectOf, popcntEffect, State.rehost_m, State.rehost_countCells, State.rehost_setResult]
    rfl
  | set =>
    simp only [effectOf]
    rcases long_cases s.messageTooLong s.status.configured with h | ⟨h, hl⟩ | ⟨h, hl⟩
    · rw [setEffect_unconfigured h, setEffect_unconfigured (s := s.rehost t) h]; rfl
    · rw [setEffect_long h hl, setEffect_long (s := s.rehost t) h hl]; rfl
    · rw [setEffect_ok h hl, setEffect_ok (s := s.rehost t) h hl, rehost_digestBoth, rehost_enginePositions,
        rehost_markCells]
      rfl
  | includes =>
    simp only [effectOf]
    rcases long_cases s.messageTooLong s.status.configured with h | ⟨h, hl⟩ | ⟨h, hl⟩
    · rw [includesEffect_unconfigured h, includesEffect_unconfigured (s := s.rehost t) h]; rfl
    · rw [includesEffect_long h hl, includesEffect_long (s := s.rehost t) h hl]; rfl
    · rw [includesEffect_ok h hl, includesEffect_ok (s := s.rehost t) h hl, rehost_digestBoth, rehost_enginePositions,
        State.rehost_bit]
      rfl

/-- So a command's completion is the same whatever lies outside the block's data. -/
theorem exec_rehost {i : Instr} {s u : State} (t : State) (h : exec i s = .next u) :
    exec i (s.rehost t) = .next { u.rehost t with pending := none } := by
  rw [exec_eq_conclude, conclude_next] at h
  rw [exec_eq_conclude, effectOf_rehost]
  rcases h with ⟨v, hv, rfl⟩ | ⟨c, hc, rfl⟩
  · rw [hv]; rfl
  · rw [hc]; rfl

end Sys2Proof.Machine
end

