-- ==== Sys2Proof/Laws/PerInstr.lean ====
section
/-! SUPPORT. Statements made of every command, one lemma per constructor. -/

namespace Sys2Proof.Laws.RsvZero

/-- The command word of a well-formed command keeps the reserved field 0, carries the opcode in OP, one of the
assigned ones, and sets E only for the engine commands (R70, R74). -/
def Statement (i : Instr) : Prop :=
  i.wellFormed = true →
    (encode i).extractLsb' 9 55 = 0 ∧ (encode i).extractLsb' 0 8 = opcode i ∧ opcode i ∈ assignedOps ∧
      ((encode i).getLsbD 8 = true → opcode i = 0x10 ∨ opcode i = 0x11)

theorem nop : Statement .nop := fun _ => by decide

theorem configure : Statement .configure := fun _ => by decide

theorem clear : Statement .clear := fun _ => by decide

theorem hreset (e : EngineSel) : Statement (.hreset e) := fun _ => by cases e <;> decide

theorem hwrite (e : EngineSel) : Statement (.hwrite e) := fun _ => by cases e <;> decide

theorem index : Statement .index := fun _ => by decide

theorem test : Statement .test := fun _ => by decide

theorem mark : Statement .mark := fun _ => by decide

theorem popcnt : Statement .popcnt := fun _ => by decide

theorem set : Statement .set := fun _ => by decide

theorem includes : Statement .includes := fun _ => by decide

end Sys2Proof.Laws.RsvZero
end

