-- ==== Sys2Proof/Laws/Step.lean ====
section
/-! SUPPORT. What a step can do, and how steps compose into runs. -/

namespace Sys2Proof.Machine

/-- `completing` in its parts. -/
theorem completing_eq_some {s : State} {w : Word} : completing s = some w ↔ s.wait = 0 ∧ s.pending = some w := by
  unfold completing
  split <;> simp_all

/-- A step completes the pending command, or gives the host a turn with the latency counted down. -/
theorem step_cases {s t : State} (h : step s = .next t) :
    (∃ w, completing s = some w ∧ completeWord w s = .next t) ∨
    (∃ n, completing s = none ∧ t = hostTurn { s with wait := n } ∧ (s.pending = none → n = s.wait)) := by
  unfold step at h
  split at h
  · next hp =>
    refine .inr ⟨s.wait, ?_, by simpa using h.symm, fun _ => rfl⟩
    unfold completing
    split <;> simp_all
  · next w hp =>
    split at h
    · next hw => exact .inl ⟨w, completing_eq_some.mpr ⟨hw, hp⟩, h⟩
    · next n hw =>
      refine .inr ⟨n, ?_, by simpa using h.symm, fun h0 => by simp [hp] at h0⟩
      simp [completing, hw]

/-- A completion decodes its word: a command runs, an illegal word raises ILLEGAL_CMD. -/
theorem completeWord_cases {w : Word} {s t : State} (h : completeWord w s = .next t) :
    (∃ i, decode w = .ok i ∧ exec i s = .next t) ∨
    (∃ r, decode w = .error r ∧
      t = { s with status := { s.status with errcode := .illegalCmd, sticky := true }, pending := none }) := by
  unfold completeWord at h
  split at h
  · next i hd => exact .inl ⟨i, hd, h⟩
  · next r hd =>
    refine .inr ⟨r, hd, ?_⟩
    rw [concludeIllegal, conclude_next] at h
    rcases h with ⟨u, hu, _⟩ | ⟨c, hc, rfl⟩
    · simp at hu
    · obtain rfl : ErrCode.illegalCmd = c := by simpa using hc
      exact State.raise_eq s _ (by decide)

/-- Who moves next, when it is the host. -/
theorem hostMove_of_completing {s : State} (h : completing s = none) : hostMove s = s.todo.head? := by
  simp [hostMove, h]

/-- A run of no step. -/
theorem runsTo_zero (s t : State) : RunsTo 0 s t ↔ s = t := by simp [RunsTo, Host.Core.run]

/-- A run begins with a step. -/
theorem runsTo_succ (n : Nat) (s t : State) : RunsTo (n + 1) s t ↔ ∃ u, step s = .next u ∧ RunsTo n u t := by
  simp only [RunsTo, Host.Core.run]
  cases h : step s with
  | next u => simp
  | fault r => simp
  | refused r => simp

/-- Runs compose. -/
theorem runsTo_add {m n : Nat} {s t u : State} (h1 : RunsTo m s t) (h2 : RunsTo n t u) : RunsTo (m + n) s u := by
  induction m generalizing s with
  | zero => rw [runsTo_zero] at h1; subst h1; simpa using h2
  | succ m ih =>
    rw [runsTo_succ] at h1
    obtain ⟨v, hv, h1⟩ := h1
    rw [show m + 1 + n = (m + n) + 1 by omega, runsTo_succ]
    exact ⟨v, hv, ih h1⟩

end Sys2Proof.Machine
end

