-- ==== Sys2Proof/Tests/Slice0.lean ====
section
/-! SUPPORT. Tests: the checks refuse ill-formed terms; words written out from R73 decode to their commands; one step
of each command against a value of 95_test_vectors.md; and for every obligation with hypotheses, a concrete state and
operands that meet them together. -/

namespace Sys2Proof.Machine.Tests

/-! ### Helpers -/

/-- The state a step answers; every step answers one (`step_answers`, `exec_answers`). -/
def after : Host.Outcome State Fault Refusal → State
  | .next t => t
  | .fault r => nomatch r
  | .refused _ => State.reset

/-- Every command answers a next state. -/
theorem exec_answers (i : Instr) (s : State) : exec i s = .next (after (exec i s)) := by
  rw [exec_eq_conclude]
  cases effectOf i s <;> rfl

/-- Every step answers a next state. -/
theorem step_answers (s : State) : step s = .next (after (step s)) := by
  unfold step
  split
  · rfl
  · split
    · unfold completeWord
      split
      · exact exec_answers _ s
      · rfl
    · rfl

/-- A block configured with M = 67 and K = 5 and an empty filter. -/
def filter67 : State :=
  { State.reset with
    m := 67, k := 5, cells := { cleared := true, ones := [] },
    status := { configured := true, sticky := false, ovr := false, errcode := .ok } }

/-- The same block after `mark 66`. -/
def marked66 : State := { filter67 with cells := { cleared := true, ones := [66] }, setbits := 1 }

/-- The message d in the buffer, and its length in MSGLEN. -/
def State.holding (s : State) (d : List Byte) : State :=
  { s with msgbuf := (List.range d.length).map (fun j => (j, d.getD j 0)), msglen := BitVec.ofNat 64 d.length }

/-- `Hello, World!!!!`, the message "Hello16" of 95_test_vectors.md. -/
def hello16 : List Byte :=
  [0x48, 0x65, 0x6c, 0x6c, 0x6f, 0x2c, 0x20, 0x57, 0x6f, 0x72, 0x6c, 0x64, 0x21, 0x21, 0x21, 0x21]

/-- `Hello`. -/
def hello : List Byte := [0x48, 0x65, 0x6c, 0x6c, 0x6f]

/-- The filter after SET of `Hello, World!!!!` (positions 27, 65, 42, 48 and 55), with both engines as it leaves
them. -/
def set16 : State :=
  { State.holding filter67 hello16 with
    cells := { cleared := true, ones := [27, 42, 48, 55, 65] }, setbits := 5, result := 5,
    eng0 := ⟨0xb57df55e4edee585, 0x7fbabd101b969fb2⟩, eng1 := ⟨0xb02fba6b1d629cae, 0xab907abfb23bfcfc⟩ }

/-- A configured block, busy with a SET, with two more turns before it completes. -/
def busySet : State := { State.holding filter67 hello16 with cmd := 0x40, pending := some 0x40, wait := 2 }

/-! ### WellFormed refuses -/

theorem test_wf_refuses_misaligned_read : (BusRequest.read 4).wellFormed = false := by decide
theorem test_wf_refuses_misaligned_write : (BusRequest.write 0x61 0xFF 0).wellFormed = false := by decide
theorem test_wf_refuses_partial_strobe : (BusRequest.write 0x60 0x0F 0).wellFormed = false := by decide
theorem test_wf_refuses_empty_strobe : (BusRequest.write 0x60 0x00 0).wellFormed = false := by decide
theorem test_wf_accepts_last_word : (BusRequest.write 0x1FFFF8 0xFF 0).wellFormed = true := by decide
theorem test_wf_refuses_small_mmax : ¬ (Params.Legal { mmax := 63, kmax := 255, msgmax := 4096 }) := by decide
theorem test_wf_refuses_ragged_mmax : ¬ (Params.Legal { mmax := 100, kmax := 255, msgmax := 4096 }) := by decide
theorem test_wf_refuses_zero_kmax : ¬ (Params.Legal { mmax := 64, kmax := 0, msgmax := 16 }) := by decide
theorem test_wf_refuses_small_msgmax : ¬ (Params.Legal { mmax := 64, kmax := 1, msgmax := 12 }) := by decide
theorem test_wf_refuses_ragged_msgmax : ¬ (Params.Legal { mmax := 64, kmax := 1, msgmax := 20 }) := by decide
theorem test_wf_refuses_large_mmax :
    ¬ (Params.Legal { mmax := 2 ^ 23 + 64, kmax := 1, msgmax := 16 }) := by decide
theorem test_wf_refuses_large_kmax : ¬ (Params.Legal { mmax := 64, kmax := 2 ^ 32, msgmax := 16 }) := by decide
theorem test_wf_refuses_large_msgmax : ¬ (Params.Legal { mmax := 64, kmax := 1, msgmax := 65544 }) := by decide
theorem test_wf_accepts_least : Params.Legal { mmax := 64, kmax := 1, msgmax := 16 } := by decide
theorem test_wf_accepts_largest :
    Params.Legal { mmax := 2 ^ 23, kmax := 2 ^ 32 - 1, msgmax := 65536 } := by decide
theorem test_wf_refuses_msgbuf_512 : (Loc.msgbuf 512).wellFormed Params.reference = false := by decide
theorem test_wf_refuses_bitvec_16384 : (Loc.bitvec 16384).wellFormed Params.reference = false := by decide
theorem test_wf_refuses_long_message :
    (HostStmt.msg (List.replicate 17 0)).wellFormed { mmax := 64, kmax := 1, msgmax := 16 } = false := by decide
theorem test_wf_refuses_long_operands :
    ([.set (List.replicate 17 0), .includes (List.replicate 17 0), .hash .e1 (List.replicate 17 0)] :
      List HostStmt).map (HostStmt.wellFormed { mmax := 64, kmax := 1, msgmax := 16 }) = [false, false, false] := by
  decide
theorem test_wf_refuses_absent_locations :
    ([.wr (.msgbuf 512) 0, .rd (.bitvec 16384)] : List HostStmt).map (HostStmt.wellFormed Params.reference) =
      [false, false] := by decide

/-! ### Words written out bit by bit: 55 zeros, E, the eight bits of OP (R70, R72) -/

theorem test_decode_nop : decode (0#55 ++ 0b0#1 ++ 0b00000000#8 : BitVec 64) = .ok .nop := by decide
theorem test_decode_configure : decode (0#55 ++ 0b0#1 ++ 0b00000001#8 : BitVec 64) = .ok .configure := by decide
theorem test_decode_clear : decode (0#55 ++ 0b0#1 ++ 0b00000010#8 : BitVec 64) = .ok .clear := by decide
theorem test_decode_hreset0 : decode (0#55 ++ 0b0#1 ++ 0b00010000#8 : BitVec 64) = .ok (.hreset .e0) := by decide
theorem test_decode_hreset1 : decode (0#55 ++ 0b1#1 ++ 0b00010000#8 : BitVec 64) = .ok (.hreset .e1) := by decide
theorem test_decode_hwrite0 : decode (0#55 ++ 0b0#1 ++ 0b00010001#8 : BitVec 64) = .ok (.hwrite .e0) := by decide
theorem test_decode_hwrite1 : decode (0#55 ++ 0b1#1 ++ 0b00010001#8 : BitVec 64) = .ok (.hwrite .e1) := by decide
theorem test_decode_index : decode (0#55 ++ 0b0#1 ++ 0b00100000#8 : BitVec 64) = .ok .index := by decide
theorem test_decode_test : decode (0#55 ++ 0b0#1 ++ 0b00110000#8 : BitVec 64) = .ok .test := by decide
theorem test_decode_mark : decode (0#55 ++ 0b0#1 ++ 0b00110001#8 : BitVec 64) = .ok .mark := by decide
theorem test_decode_popcnt : decode (0#55 ++ 0b0#1 ++ 0b00110010#8 : BitVec 64) = .ok .popcnt := by decide
theorem test_decode_set : decode (0#55 ++ 0b0#1 ++ 0b01000000#8 : BitVec 64) = .ok .set := by decide
theorem test_decode_includes : decode (0#55 ++ 0b0#1 ++ 0b01000001#8 : BitVec 64) = .ok .includes := by decide

/-- The illegal rows of the decode table of 95_test_vectors.md, each with the ground of R74 it falls under. -/
theorem test_decode_illegal :
    [0x3#64, 0x12, 0x33, 0xFF, 0x100, 0x141, 0x210, 0x8000000000000040].map decode =
      [.error .unassignedOp, .error .unassignedOp, .error .unassignedOp, .error .unassignedOp, .error .engineBit,
       .error .engineBit, .error .reservedBits, .error .reservedBits] := by decide

/-- HRESET e1 as the bus carries it: eight bytes, the lowest first (R53, R70). -/
theorem test_decode_bytes : decodeBytes [0x10, 0x01, 0, 0, 0, 0, 0, 0] = .ok (.hreset .e1, []) := by decide
theorem test_decode_bytes_short : decodeBytes [0x10, 0x01, 0] = .error .shortWord := by decide
theorem test_decode_table_word : decodeTableWord 64 0x111 = some (.hwrite .e1) := by decide
theorem test_decode_table_word_rejects : decodeTableWord 64 0x120 = none := by decide

/-! ### One step of each command, against 95_test_vectors.md and the examples of the rules -/

/-- R110's example: `nop` after a RANGE error leaves STATUS = 0x0A. -/
theorem test_nop_after_range :
    (after (exec .nop { filter67 with status := ⟨true, true, false, .range⟩ })).statusWord = 0x0A := by decide

/-- `configure 67, 5` from reset: M = 67, K = 5, SETBITS = 0, STATUS = 0x02 and the engines at their seeds. -/
theorem test_configure :
    let t := after (exec .configure { State.reset with arg0 := 67, arg1 := 5, eng1 := ⟨3, 4⟩ })
    (t.m, t.k, t.setbits, t.statusWord, t.eng1) = (67, 5, 0, 0x02, ⟨0xFA, 0xFA⟩) := by decide

/-- `configure 0, 5` on a filter: STATUS = 0x20E, and the filter is kept. -/
theorem test_configure_invalid :
    let t := after (exec .configure { marked66 with arg0 := 0, arg1 := 5 })
    (t.statusWord, t.m, t.setbits, t.bit 66) = (0x20E, 67, 1, true) := by decide

/-- `clear` after `mark 66`, with STICKY set: SETBITS = 0, the cells are 0 and STATUS = 0x0A. -/
theorem test_clear :
    let t := after (exec .clear { marked66 with status := ⟨true, true, false, .ok⟩ })
    (t.setbits, t.bit 66, t.statusWord, t.m) = (0, false, 0x0A, 67) := by decide

/-- `clear` on the reset state: STATUS = 0x30C. -/
theorem test_clear_unconfigured : (after (exec .clear State.reset)).statusWord = 0x30C := by decide

/-- R88's example: `hreset e1` leaves E1 = (0xFA, 0xFA), and the other engine alone. -/
theorem test_hreset :
    let t := after (exec (.hreset .e1) { State.reset with eng0 := ⟨1, 2⟩, eng1 := ⟨3, 4⟩ })
    (t.eng0, t.eng1) = (⟨1, 2⟩, ⟨0xFA, 0xFA⟩) := by decide

/-- W1: seed 0 over `Hello, World!!!!` on engine 0. -/
theorem test_hwrite_w1 : (after (exec (.hwrite .e0) (State.holding State.reset hello16))).eng0 =
    ⟨0xb57df55e4edee585, 0x7fbabd101b969fb2⟩ := by decide

/-- `Hello` under seed 0xFA, a message that is all tail, on engine 1. -/
theorem test_hwrite_tail : (after (exec (.hwrite .e1) (State.holding State.reset hello))).eng1 =
    ⟨0x13962a1c2901f75e, 0x71a97a61a7af35e2⟩ := by decide

/-- `index 2` after SET of `Hello, World!!!!`: RESULT = 42. -/
theorem test_index : (after (exec .index { set16 with arg0 := 2 })).result = 42 := by decide

/-- `index 5` with K = 5: RANGE, STATUS = 0x40E, RESULT unchanged. -/
theorem test_index_range :
    let t := after (exec .index { set16 with arg0 := 5, result := 55 })
    (t.statusWord, t.result) = (0x40E, 55) := by decide

/-- `test 66` after `mark 66`: RESULT = 1. -/
theorem test_test : (after (exec .test { marked66 with arg0 := 66 })).result = 1 := by decide

/-- `test 67` with M = 67: RANGE, STATUS = 0x40E, RESULT unchanged. -/
theorem test_test_range :
    let t := after (exec .test { marked66 with arg0 := 67, result := 9 })
    (t.statusWord, t.result) = (0x40E, 9) := by decide

/-- `mark 66` on a fresh filter: RESULT = 1, SETBITS = 1 and BITVEC[1] = 0x4. -/
theorem test_mark :
    let t := after (exec .mark { filter67 with arg0 := 66 })
    (t.result, t.setbits, t.bitWord 1) = (1, 1, 0x4) := by decide

/-- A second `mark 66`: RESULT = 0 and SETBITS = 1. -/
theorem test_mark_again :
    let t := after (exec .mark { marked66 with arg0 := 66, result := 1 })
    (t.result, t.setbits, t.bitWord 1) = (0, 1, 0x4) := by decide

/-- `popcnt` after SET of `Hello, World!!!!`: RESULT = 5. -/
theorem test_popcnt : (after (exec .popcnt { set16 with result := 0, setbits := 9 })).result = 5 := by decide

/-- `popcnt` on the reset state: RESULT = 0 and STATUS = 0. -/
theorem test_popcnt_unconfigured :
    let t := after (exec .popcnt { State.reset with result := 7 })
    (t.result, t.statusWord) = (0, 0) := by decide

/-- `set "Hello, World!!!!"` on the fresh filter: RESULT = 5, SETBITS = 5, BITVEC[0] and BITVEC[1]. -/
theorem test_set :
    let t := after (exec .set (State.holding filter67 hello16))
    (t.result, t.setbits, t.bitWord 0, t.bitWord 1) = (5, 5, 0x0081040008000000, 0x2) := by decide

/-- With MSGLEN = 4097: on an unconfigured block NOT_CONFIGURED, not HASH_WRITE; on a filter HASH_WRITE, code 5. -/
theorem test_set_priority :
    (after (exec .set { State.reset with msglen := 4097 })).statusWord = 0x30C ∧
    (after (exec .set { filter67 with msglen := 4097 })).statusWord = 0x50E := by decide

/-- After that SET, `includes "Hello, World!!!!"` gives 1. -/
theorem test_includes_member : (after (exec .includes { set16 with result := 0 })).result = 1 := by decide

/-- After that SET, `includes "Hello"` gives 0 and leaves E1_H1 = 0x71a97a61a7af35e2. -/
theorem test_includes_other :
    let t := after (exec .includes (State.holding { set16 with result := 1 } hello))
    (t.result, t.eng1.h1, t.setbits) = (0, 0x71a97a61a7af35e2, 5) := by decide

/-! ### The host interface -/

/-- `wr CMD, 0x120` completes with STATUS = 0x10E on a block whose STATUS was 0x0A, and CMD holds the word. -/
theorem test_illegal_word :
    let t := after (step ({ filter67 with status := ⟨true, true, false, .ok⟩ }.withFetchWord 64 0x120))
    (t.statusWord, t.cmd) = (0x10E, 0x120) := by decide

/-- The fetch word runs as the first command after reset. -/
theorem test_first_command : (after (step (State.reset.withFetchWord 64 0x110))).eng1 = ⟨0xFA, 0xFA⟩ := by decide

/-- The reset rows of the host bus table: `rd ID`, a misaligned read, a reserved read. -/
theorem test_bus_reads :
    (serve (.read 0x098) (serve (.read 0x004) (serve (.read 0) State.reset))).responses =
      [⟨some 0x00000001474C4F4D, false⟩, ⟨some 0, true⟩, ⟨some 0, false⟩] := by decide

/-- While busy with a SET, `rd STATUS` reads 0x03, and `wr MSGLEN, 3` is dropped and sets OVR. -/
theorem test_bus_busy :
    let t := serve (.write 0x60 0xFF 3) (serve (.read 0x28) busySet)
    (t.responses, t.msglen, t.status.ovr) = ([⟨some 0x03, false⟩, ⟨none, false⟩], 16, true) := by decide

/-- After `msg "Hello"`, `rd MSGBUF[0]` reads 0x0000006f6c6c6548. -/
theorem test_bus_msgbuf :
    let t := hostTurn (hostTurn { State.reset with todo := (HostStmt.msg hello).expand })
    (t.msgWord 0, t.msglen, t.todo) = (0x0000006f6c6c6548, 5, []) := by decide

/-- `wr STATUS, 0x10` keeps STICKY, and `wr STATUS, 0x08` clears it. -/
theorem test_status_rw1c :
    let s := { filter67 with status := ⟨true, true, true, .ok⟩ }
    ((serve (.write 0x28 0xFF 0x10) s).statusWord, (serve (.write 0x28 0xFF 0x08) s).statusWord) =
      (0x0A, 0x12) := by decide

/-- R77 to R81: statements 1 to 7 of program P2, `configure 67, 5` and `set "Hello, World!!!!"`. -/
theorem test_expansion : expandProgram [.configure 67 5, .set hello16] =
    [.request (.write 0x30 0xFF 0x43), .request (.write 0x38 0xFF 0x5), .request (.write 0x20 0xFF 0x001), .poll,
     .request (.write 0x10000 0xFF 0x57202c6f6c6c6548), .request (.write 0x10008 0xFF 0x21212121646c726f),
     .request (.write 0x60 0xFF 0x10), .request (.write 0x20 0xFF 0x040), .poll] := by decide

/-- R78, R81: the expansions that `test_expansion` does not show. -/
theorem test_expansion_others : expandProgram [.index 2, .test 66, .mark 66, .hash .e1 hello, .includes [], .clrerr] =
    [.request (.write 0x30 0xFF 2), .request (.write 0x20 0xFF 0x020), .poll,
     .request (.write 0x30 0xFF 66), .request (.write 0x20 0xFF 0x030), .poll,
     .request (.write 0x30 0xFF 66), .request (.write 0x20 0xFF 0x031), .poll,
     .request (.write 0x10000 0xFF 0x0000006f6c6c6548), .request (.write 0x60 0xFF 5),
     .request (.write 0x20 0xFF 0x110), .poll, .request (.write 0x20 0xFF 0x111), .poll,
     .request (.write 0x60 0xFF 0), .request (.write 0x20 0xFF 0x041), .poll,
     .request (.write 0x28 0xFF 0x18)] := by decide

/-- R55: h0 first, each word most significant byte first. -/
theorem test_serialize : (serializeDigest ⟨0xb57df55e4edee585, 0x7fbabd101b969fb2⟩) =
    [0xb5, 0x7d, 0xf5, 0x5e, 0x4e, 0xde, 0xe5, 0x85, 0x7f, 0xba, 0xbd, 0x10, 0x1b, 0x96, 0x9f, 0xb2] := by decide

/-- The digest row n = 32 of 95_test_vectors.md, two blocks: block 1 is at bytes 16 and 24 of the message (R89), and
32 and 40 (as R54 prints) would lie past its end. -/
theorem test_two_blocks : mm3 ⟨0, 0⟩ ((List.range 32).map (BitVec.ofNat 8)) =
    ⟨0xc66d9022b62f500f, 0x1c050a6e34c31151⟩ := by decide

/-- Blocks at 32b and 32b + 8, as R54 prints, do not give the digest of that row. -/
theorem test_two_blocks_not_at_32b :
    let d := (List.range 32).map (BitVec.ofNat 8)
    finalize ((List.range 2).foldl (fun h b => blockStep h (le64 d (32 * b)) (le64 d (32 * b + 8))) ⟨0, 0⟩) 32 ≠
      ⟨0xc66d9022b62f500f, 0x1c050a6e34c31151⟩ := by decide

/-- `fmix64` of 1 and of all ones (95_test_vectors.md). -/
theorem test_fmix64 : fmix64 1 = 0xb456bcfc34c2cb2c ∧ fmix64 (-1) = 0x64b5720b4b825f21 := by decide

/-- R122: the six codes by number. -/
theorem test_error_codes : [ErrCode.ok, .illegalCmd, .invalidParam, .notConfigured, .range, .hashWrite].map ErrCode.code =
    [0x00, 0x01, 0x02, 0x03, 0x04, 0x05] := by decide

/-- R86: nine tail bytes put the ninth in k2. -/
theorem test_tail_words :
    tailStep ⟨0, 0⟩ [0, 1, 2, 3, 4, 5, 6, 7, 8] = ⟨mixK1 0x0706050403020100, 0x3bb5526b0042c39a⟩ := by decide

/-- Index vectors of 95_test_vectors.md: the cube, the wrap of the linear term, and the wrap of the cube. -/
theorem test_idx :
    (idx 0 0 3 64, idx (-1) 1 1 10, idx (-1) (-1) 1 1000, idx 0 0 (2 ^ 22 + 1) 7, idx 0 1 (-1) (2 ^ 20)) =
      (27, 1, 615, 5, 1048574) := by decide

/-! ### Witnesses: the hypotheses of each obligation hold together somewhere -/

theorem witness_illegal_grounds :
    (∃ w : Word, w.extractLsb' 0 8 ∉ assignedOps) ∧ (∃ w : Word, w.getLsbD 9 = true ∧ w.extractLsb' 0 8 ∈ assignedOps) ∧
    (∃ w : Word, w.getLsbD 63 = true ∧ w.extractLsb' 0 8 ∈ assignedOps) ∧
    (∃ w : Word, w.getLsbD 8 = true ∧ w.extractLsb' 0 8 = 0x41#8 ∧ w.extractLsb' 9 55 = 0) :=
  ⟨⟨0x03, by decide⟩, ⟨0x210, by decide⟩, ⟨0x8000000000000040, by decide⟩, ⟨0x141, by decide⟩⟩

theorem witness_StepCompletesTheDecodedCommand :
    let s := State.reset.withFetchWord 64 0x20
    s.pending = some 0x20 ∧ s.wait = 0 ∧ decode 0x20 = .ok .index ∧ Instr.index.wellFormed = true := by decide

theorem witness_StepCompletesTheDecodedCommand_host :
    State.reset.pending = none ∧ busySet.pending = some 0x40 ∧ busySet.wait = 1 + 1 := by decide

theorem witness_IllegalWordOnlySetsStatus :
    let s := set16.withFetchWord 64 0x120
    s.pending = some 0x120 ∧ s.wait = 0 ∧ decode 0x120 = .error .engineBit := by decide

theorem witness_IllegalWordOnlySetsStatus_inv : Inv (State.reset.withFetchWord 64 0x120) where
  legal := by decide
  msgbufWf := by decide
  msgbufBound := by decide
  cellsWf := by decide
  cellsBound := by decide
  count := by decide
  geometry := by decide
  blank := by decide
  pendingCmd := fun w h => by simpa [State.withFetchWord] using h

theorem witness_MalformedRequestHasNoEffect :
    (4#21).toNat % 8 ≠ 0 ∧ (0x1FFFFF#21).toNat % 8 ≠ 0 ∧ (0x0F#8) ≠ 0xFF ∧ (0x00#8) ≠ 0xFF := by decide

theorem witness_WriteWhileBusyIsDropped :
    busySet.busy = true ∧ (0x00#21).toNat % 8 = 0 ∧ (0x1FFFF8#21).toNat % 8 = 0 := by decide

/-- Both ends of each of the three reserved ranges, on an idle and on a busy block. -/
theorem witness_ReservedReadsZeroIgnoresWrites :
    State.reset.params.Legal ∧ State.reset.busy = false ∧ busySet.params.Legal ∧ busySet.busy = true ∧
    ∀ o ∈ [0x98, 0xFFF8, 0x11000, 0xFFFF8, 0x120000, 0x1FFFF8], (BitVec.ofNat 21 o).toNat = o ∧ o % 8 = 0 ∧
      (0x98 ≤ o ∧ o < 0x10000 ∨ 0x10000 + State.reset.params.msgmax ≤ o ∧ o < 0x100000 ∨
        0x100000 + State.reset.params.mmax / 8 ≤ o) := by decide

theorem witness_RegisterReads_and_Writes : State.reset.busy = false ∧ set16.busy = false := by decide

theorem witness_ReadsAreHarmlessAndWritesIdempotent :
    set16.msgbuf.wf ∧ (0x28#21 ≠ 0x20) ∧ (0x10008#21 ≠ 0x20) ∧ set16.busy = false := by decide

/-- A volatile register, both ends of the BITVEC window, and the locations next to them that are not volatile. -/
theorem witness_VolatileReadsAreFreshDraws :
    busySet.params.Legal ∧ busySet.busy = true ∧
    (∀ o ∈ [0x40, 0x90, 0x100000, 0x11FFF8], (BitVec.ofNat 21 o).toNat = o ∧ o % 8 = 0 ∧
      (BitVec.ofNat 21 o ∈ [0x40#21, 0x48#21, 0x50#21, 0x58#21, 0x78#21, 0x80#21, 0x88#21, 0x90#21] ∨
        0x100000 ≤ o ∧ o < 0x100000 + busySet.params.mmax / 8)) ∧
    (∀ o ∈ [0x28, 0x38, 0x60, 0x98, 0xFFFF8, 0x120000], (BitVec.ofNat 21 o).toNat = o ∧ o % 8 = 0 ∧
      BitVec.ofNat 21 o ∉ [0x40#21, 0x48#21, 0x50#21, 0x58#21, 0x78#21, 0x80#21, 0x88#21, 0x90#21] ∧
        ¬ (0x100000 ≤ o ∧ o < 0x100000 + busySet.params.mmax / 8)) := by decide

theorem witness_CompletionsIgnoreTheDraws : ∃ t, exec .set (State.holding filter67 hello16) = .next t ∧
    t.status.errcode = .ok :=
  ⟨_, exec_answers _ _, by decide⟩

theorem witness_MsgbufWindow :
    set16.params.Legal ∧ 0 < set16.params.msgmax / 8 ∧ 511 < set16.params.msgmax / 8 ∧ set16.busy = false := by decide

theorem witness_MsgbufWordIsLe64OfTheMessage :
    8 * 0 + 8 ≤ set16.msglen.toNat ∧ 8 * 1 + 8 ≤ set16.msglen.toNat ∧ 16 * 0 + 16 ≤ set16.msglen.toNat := by decide

theorem witness_BitvecWindow :
    set16.params.Legal ∧ 0 < set16.params.mmax / 64 ∧ 16383 < set16.params.mmax / 64 ∧ set16.busy = false ∧
    State.reset.params.Legal ∧ State.reset.busy = false ∧ State.reset.m = 0 := by decide

/-- The first and the last byte of both windows, and the first and the last word of the aperture. -/
theorem witness_BusIsLittleEndian :
    set16.params.Legal ∧ set16.busy = false ∧ (0x000000#21).toNat % 8 = 0 ∧ (0x1FFFF8#21).toNat % 8 = 0 ∧
    0 < set16.params.msgmax ∧ 4095 < set16.params.msgmax ∧ 0 < set16.params.mmax / 8 ∧
    131071 < set16.params.mmax / 8 ∧ 511 < set16.params.msgmax / 8 ∧ 0 < 8 ∧ 7 < 8 := by decide

/-- MSGLEN = MSGMAX and MSGLEN = MSGMAX + 1, with the digest function of R89. -/
theorem witness_HwriteDigestsTheMessage : ∃ (s s' : State) (d : List Byte) (run : EngineWords → EngineWords),
    d = (List.range s.msglen.toNat).map s.msgByte ∧
    (∀ h, run h = finalize (tailStep ((List.range (s.msglen.toNat / 16)).foldl
      (fun h b => blockStep h (le64 d (16 * b)) (le64 d (16 * b + 8))) h) d) s.msglen.toNat) ∧
    s.msglen.toNat = s.params.msgmax ∧ s'.msglen.toNat = s'.params.msgmax + 1 :=
  ⟨{ State.reset with msglen := 4096 }, { State.reset with msglen := 4097 }, _, _, rfl, fun _ => rfl, by decide,
    by decide⟩

theorem witness_BlockLoopPeelsBlocks : hello16.length = 16 ∧ (List.replicate 15 (0 : Byte)).length < 16 := by decide

theorem witness_HwriteWithoutResetChains : ∃ s s1 s2 u v : State, s.msglen.toNat ≤ s.params.msgmax ∧
    exec (.hreset .e0) s = .next s1 ∧ exec (.hwrite .e0) s1 = .next s2 ∧ u.engine .e0 = s2.engine .e0 ∧
    u.msglen.toNat ≤ u.params.msgmax ∧ exec (.hwrite .e0) u = .next v ∧
    v.eng0 = ⟨0xea865b74a25c2c09, 0x7b0b60595bf45332⟩ :=
  ⟨State.holding State.reset hello16, _, _, _, _, by decide, exec_answers _ _, exec_answers _ _, rfl, by decide,
    exec_answers _ _, by decide⟩

theorem witness_HwriteReadsOnlyItsMessage : ∃ s s' t t' : State, s.engine .e0 = s'.engine .e0 ∧
    s.msglen = s'.msglen ∧ s.params = s'.params ∧ (∀ j, j < s.msglen.toNat → s.msgByte j = s'.msgByte j) ∧
    s.msgByte 16 ≠ s'.msgByte 16 ∧ s.eng1 ≠ s'.eng1 ∧ exec (.hwrite .e0) s = .next t ∧
    exec (.hwrite .e0) s' = .next t' :=
  ⟨{ State.holding State.reset (hello16 ++ [1]) with msglen := 16 },
    { State.holding State.reset (hello16 ++ [2]) with msglen := 16, eng1 := ⟨0, 0⟩ }, _, _, by decide, by decide,
    by decide, by decide, by decide, by decide, exec_answers _ _, exec_answers _ _⟩

theorem witness_IndexFunctionIsTheWrappedSumModM : (1 : Word) ≠ 0 ∧ (-1 : Word) ≠ 0 := by decide

/-- Each clause of INDEX, TEST, MARK and CLEAR, at the last operand that completes and the first that does not. -/
theorem witness_IndexCommand :
    set16.status.configured = true ∧ ({ set16 with arg0 := 4 } : State).arg0.toNat < set16.k.toNat ∧
    State.reset.status.configured = false ∧ set16.k.toNat ≤ ({ set16 with arg0 := 5 } : State).arg0.toNat := by decide

theorem witness_ClearEmptiesTheVector :
    set16.status.configured = true ∧ State.reset.status.configured = false := by decide

theorem witness_TestReadsOneCell_and_MarkSetsOneCell :
    set16.status.configured = true ∧ ({ set16 with arg0 := 66 } : State).arg0.toNat < set16.m.toNat ∧
    State.reset.status.configured = false ∧ set16.m.toNat ≤ ({ set16 with arg0 := 67 } : State).arg0.toNat := by decide

/-- The invariant holds of a configured block that holds a filter and a message. -/
theorem set16_inv : Inv set16 where
  legal := by decide
  msgbufWf := by decide
  msgbufBound := by decide
  cellsWf := by decide
  cellsBound := by decide
  count := by decide
  geometry := by decide
  blank := by decide
  pendingCmd := nofun

theorem witness_PopcntAgreesWithSetbits : ∃ s t : State, Inv s ∧ exec .popcnt s = .next t :=
  ⟨set16, _, set16_inv, exec_answers _ _⟩

/-- A SET of `Hello` on the filter, about to complete: a step that is no CONFIGURE, CLEAR or reset. -/
theorem witness_CellsAndCountOnlyGrow :
    let s := (State.holding set16 hello).withFetchWord 64 0x40
    ¬ emptying s ∧ (after (step s)).setbits = 9 := by decide

theorem witness_CellsAndCountOnlyGrow_inv : Inv ((State.holding set16 hello).withFetchWord 64 0x40) where
  legal := by decide
  msgbufWf := by decide
  msgbufBound := by decide
  cellsWf := by decide
  cellsBound := by decide
  count := by decide
  geometry := by decide
  blank := by decide
  pendingCmd := fun w h => by simpa [State.withFetchWord] using h

/-- The last clause of VolatileReadsAreFreshDraws: a busy block that meets the invariant. -/
theorem witness_VolatileReadsAreFreshDraws_inv : ∃ s : State, Inv s ∧ s.pending = some 0x40 :=
  ⟨_, witness_CellsAndCountOnlyGrow_inv, by decide⟩

theorem witness_NoCellAboveMIsWritten : ∃ s t : State, Inv s ∧ exec .mark s = .next t ∧ t.bit 66 = true ∧
    s.bit 66 = false ∧ Instr.mark ≠ .configure ∧ Instr.mark ≠ .clear ∧ s.bit 65 = true :=
  ⟨{ set16 with arg0 := 66 }, _, ⟨by decide, by decide, by decide, by decide, by decide, by decide, by decide, by decide,
    nofun⟩, exec_answers _ _, by decide, by decide, by decide, by decide, by decide⟩

/-- The least and the largest geometry CONFIGURE takes, and one of each kind it refuses. -/
theorem witness_ConfigureMakesAnEmptyFilter :
    (∀ s ∈ [{ State.reset with arg0 := 1, arg1 := 1 }, { State.reset with arg0 := 1048576, arg1 := 255 }],
      1 ≤ s.arg0.toNat ∧ s.arg0.toNat ≤ s.params.mmax ∧ 1 ≤ s.arg1.toNat ∧ s.arg1.toNat ≤ s.params.kmax) ∧
    (∀ s ∈ [{ State.reset with arg0 := 0, arg1 := 1 }, { State.reset with arg0 := 1048577, arg1 := 5 },
        { State.reset with arg0 := 67, arg1 := 0 }, { State.reset with arg0 := 67, arg1 := 256 }],
      s.arg0 = 0 ∨ s.params.mmax < s.arg0.toNat ∨ s.arg1 = 0 ∨ s.params.kmax < s.arg1.toNat) := by decide

/-- For SET and INCLUDES: the digests, the positions, and a state for each clause. -/
theorem witness_SetMarksThePositions_and_IncludesAsksAllPositions :
    ∃ (s : State) (h0 h1 : EngineWords) (pos : Nat → Nat),
      h0 = mm3 ⟨s.seed0, s.seed0⟩ s.message ∧
      h1 = mm3 ⟨s.seed1, s.seed1⟩ s.message ∧ (∀ i, pos i = (idx h0.h0 h1.h0 (BitVec.ofNat 64 i) s.m).toNat) ∧
      s.status.configured = true ∧ s.msglen.toNat ≤ s.params.msgmax :=
  ⟨{ filter67 with msglen := 4096 }, _, _, _, rfl, rfl, fun _ => rfl, by decide, by decide⟩

theorem witness_SetMarksThePositions_errors :
    State.reset.status.configured = false ∧
    ({ filter67 with msglen := 4097 } : State).status.configured = true ∧
    filter67.params.msgmax < ({ filter67 with msglen := 4097 } : State).msglen.toNat := by decide

/-- SET of `Hello, World!!!!`, two turns of the host, and INCLUDES of the same message. -/
theorem witness_NoFalseNegatives : ∃ s t u v : State, exec .set s = .next t ∧ t.status.errcode = .ok ∧
    QuietRun t u ∧ t ≠ u ∧ u.message = s.message ∧ exec .includes u = .next v ∧ v.status.errcode = .ok := by
  have quiet : ∀ s : State, ¬ emptying s → (after (step s)).seed0 = s.seed0 → (after (step s)).seed1 = s.seed1 →
      QuietStep s (after (step s)) := fun s h h0 h1 => ⟨step_answers s, h, h0, h1⟩
  let s := { State.holding filter67 hello16 with todo := [readOp (.reg .id), writeOp (.reg .arg0) 7] }
  let t := after (exec .set s)
  refine ⟨s, t, after (step (after (step t))), _, exec_answers _ _, by decide, ?_, by decide, by decide,
    exec_answers _ _, by decide⟩
  exact (Relation.ReflTransGen.single (quiet t (by decide) (by decide) (by decide))).tail
    (quiet _ (by decide) (by decide) (by decide))

/-- The same with a second SET in place of INCLUDES. -/
theorem witness_SecondSetChangesNothing : ∃ s t u v : State, exec .set s = .next t ∧ t.status.errcode = .ok ∧
    QuietRun t u ∧ t ≠ u ∧ u.message = s.message ∧ exec .set u = .next v ∧ v.status.errcode = .ok := by
  let s := { State.holding filter67 hello16 with todo := [readOp (.reg .id)] }
  let t := after (exec .set s)
  refine ⟨s, t, after (step t), _, exec_answers _ _, by decide, ?_, by decide, by decide, exec_answers _ _, by decide⟩
  exact Relation.ReflTransGen.single ⟨step_answers t, by decide, by decide, by decide⟩

theorem witness_IndexReplaysThePositions : ∃ s t s' t' : State, exec .set s = .next t ∧ t.status.errcode = .ok ∧
    exec .includes s' = .next t' ∧ t'.status.errcode = .ok ∧ (4 : Word).toNat < s.k.toNat :=
  ⟨State.holding filter67 hello16, _, State.holding filter67 hello, _, exec_answers _ _, by decide,
    exec_answers _ _, by decide, by decide⟩

theorem witness_CommandsNeverWriteTheirInputs : ∃ s t : State, exec .set s = .next t ∧ t ≠ s ∧ s.busy = true :=
  ⟨busySet, _, exec_answers _ _, by decide, by decide⟩

/-- A step that changes RESULT, once by INDEX and once by reset. -/
theorem witness_ResultIsOnlyWrittenByItsCommands :
    (after (step ({ set16 with arg0 := 2 }.withFetchWord 64 0x20))).result ≠ set16.result ∧
    (after (step { set16 with todo := [.hardReset] })).result ≠ set16.result := by decide

theorem witness_ErrorsArePrecise : ∃ s t : State, exec .set s = .next t ∧ t.status.errcode ≠ .ok :=
  ⟨State.reset, _, exec_answers _ _, by decide⟩

theorem witness_ErrorCodesOfEachCommand : ∃ codes : Instr → List ErrCode,
    codes .nop = [.ok] ∧ codes .configure = [.ok, .invalidParam] ∧ codes .clear = [.ok, .notConfigured] ∧
    (∀ e, codes (.hreset e) = [.ok]) ∧ (∀ e, codes (.hwrite e) = [.ok, .hashWrite]) ∧
    codes .index = [.ok, .notConfigured, .range] ∧ codes .test = [.ok, .notConfigured, .range] ∧
    codes .mark = [.ok, .notConfigured, .range] ∧ codes .popcnt = [.ok] ∧
    codes .set = [.ok, .notConfigured, .hashWrite] ∧ codes .includes = [.ok, .notConfigured, .hashWrite] :=
  ⟨fun
    | .nop => [.ok]
    | .configure => [.ok, .invalidParam]
    | .clear => [.ok, .notConfigured]
    | .hreset _ => [.ok]
    | .hwrite _ => [.ok, .hashWrite]
    | .index => [.ok, .notConfigured, .range]
    | .test => [.ok, .notConfigured, .range]
    | .mark => [.ok, .notConfigured, .range]
    | .popcnt => [.ok]
    | .set => [.ok, .notConfigured, .hashWrite]
    | .includes => [.ok, .notConfigured, .hashWrite],
    by decide, by decide, by decide, fun _ => rfl, fun _ => rfl, by decide, by decide, by decide, by decide, by decide,
    by decide⟩

theorem witness_ErrorPriority :
    (∃ (s t : State), s.pending = some 0xFF ∧ s.wait = 0 ∧ (∃ r, decode 0xFF = .error r) ∧ step s = .next t) ∧
    (∃ s t : State, State.reset = s ∧ s.status.configured = false ∧ exec .index s = .next t ∧
      Instr.index ∈ [Instr.clear, .index, .test, .mark, .set, .includes]) :=
  ⟨⟨State.reset.withFetchWord 64 0xFF, _, by decide, by decide, ⟨.unassignedOp, by decide⟩, step_answers _⟩,
    ⟨_, _, rfl, by decide, exec_answers _ _, by decide⟩⟩

/-- A step that changes the geometry, once by CONFIGURE and once by reset. -/
theorem witness_GeometryChangesOnlyByConfigureOrReset :
    (after (step (({ State.reset with arg0 := 67, arg1 := 5 } : State).withFetchWord 64 0x01))).m ≠ State.reset.m ∧
    (after (step { set16 with todo := [.hardReset] })).status.configured ≠ set16.status.configured := by decide

/-- BUSY rises at an acceptance, falls at a completion and at a reset, and stays in between. -/
theorem witness_BusyFollowsAcceptanceAndCompletion :
    (∃ v, (hostTurn { set16 with todo := [writeOp (.reg .cmd) 0x40] }).pending = some v) ∧
    set16.busy = false ∧ (State.reset.withFetchWord 64 0x20).busy = true ∧
    (after (step (State.reset.withFetchWord 64 0x20))).busy = false ∧
    (after (step { busySet with todo := [.hardReset] })).busy = false ∧
    busySet.busy = true ∧ (after (step busySet)).busy = true :=
  ⟨⟨0x40, by decide⟩, by decide⟩

/-- STICKY rises at a failing completion, and falls at a write of 1 to its bit. -/
theorem witness_StickyIsSetByErrorsAndClearedByOnes :
    let s := State.reset.withFetchWord 64 0x20
    let u := { State.reset with
      status := ⟨false, true, false, .ok⟩, todo := [writeOp (.reg .status) 0x08] }
    (completing s).isSome = true ∧ (after (step s)).status.errcode ≠ .ok ∧ s.status.sticky = false ∧
    (after (step s)).status.sticky = true ∧ u.status.sticky = true ∧ (after (step u)).status.sticky = false := by
  decide

/-- OVR rises at a dropped write, and falls at a write of 1 to its bit. -/
theorem witness_OvrIsSetByDroppedWritesAndClearedByOnes :
    let s := { busySet with todo := [.request (.write 0x1FFFF8 0xFF 1)] }
    let u := { State.reset with
      status := ⟨false, false, true, .ok⟩, todo := [writeOp (.reg .status) 0x10] }
    hostMove s = some (.request (.write 0x1FFFF8 0xFF 1)) ∧ (0x1FFFF8#21).toNat % 8 = 0 ∧ s.busy = true ∧
    s.status.ovr = false ∧ (after (step s)).status.ovr = true ∧ u.status.ovr = true ∧
    (after (step u)).status.ovr = false := by decide

/-- A write of the last MSGBUF word changes its last byte, the byte MSGMAX - 1. -/
theorem witness_MessageBytesChangeOnlyByHostWrites :
    let s := { State.reset with
      msgbuf := [(4095, 1)], todo := [writeOp (.msgbuf 511) 0x0200000000000000] }
    s.params.Legal ∧ (after (step s)).msgByte 4095 ≠ s.msgByte 4095 := by decide

theorem witness_EveryStepKeepsTheInvariant : ∃ s t : State, Inv s ∧ step s = .next t ∧ t.setbits ≠ s.setbits :=
  ⟨_, _, witness_CellsAndCountOnlyGrow_inv, step_answers _, by decide⟩

theorem witness_InvariantHoldsAfterReset : Params.Legal { mmax := 64, kmax := 1, msgmax := 16 } := by decide

theorem witness_HardwareResetLoadsTheResetValues :
    let s := { busySet with todo := [.hardReset, readOp (.reg .id)] }
    s.todo = HostOp.hardReset :: [readOp (.reg .id)] ∧ 0 < s.wait ∧ set16.pending = none := by decide

theorem witness_PendingCommandCompletesOnItsOperands :
    let s := { busySet with todo := [writeOp (.reg .msglen) 3, .poll] }
    s.pending = some 0x40 ∧ HostOp.hardReset ∉ s.todo := by decide

/-- `msg` of a message that fills the buffer, and of the empty one, on an idle block that meets the invariant. -/
theorem witness_MsgStatementLoadsTheMessage :
    (∃ s : State, Inv s ∧ s.pending = none ∧ s.todo = (HostStmt.msg []).expand ++ []) ∧
    (∃ s : State, Inv s ∧ s.pending = none ∧ s.todo = (HostStmt.msg hello16).expand ++ [.poll]) ∧
    (HostStmt.msg hello16).wellFormed { mmax := 64, kmax := 1, msgmax := 16 } = true ∧
    (HostStmt.msg hello16).wellFormed set16.params = true ∧ (HostStmt.msg []).wellFormed set16.params = true :=
  ⟨⟨{ set16 with todo := (HostStmt.msg []).expand ++ [] },
      ⟨by decide, by decide, by decide, by decide, by decide, by decide, by decide, by decide, nofun⟩,
      by decide, rfl⟩,
    ⟨{ set16 with todo := (HostStmt.msg hello16).expand ++ [.poll] },
      ⟨by decide, by decide, by decide, by decide, by decide, by decide, by decide, by decide, nofun⟩,
      by decide, rfl⟩, by decide, by decide, by decide⟩

theorem witness_CommandStatementHasTheCommandsEffect : ∃ s : State, s.pending = none ∧
    s.todo = (HostStmt.command .set).expand ++ [] :=
  ⟨{ set16 with todo := (HostStmt.command .set).expand ++ [] }, by decide, rfl⟩

end Sys2Proof.Machine.Tests
end

namespace Sys2Proof

/-! ### The decoder and the encoder (R73, R76) -/

/-- A word under the mask that keeps every bit. -/
theorem and_wholeMask (w : Word) : w &&& 0xFFFFFFFFFFFFFFFF = w := BitVec.and_allOnes

/-- A word is what an engine row's mask keeps, together with bit 8, the field E (R70). -/
theorem eq_and_engineMask_or_engineBit (w : Word) :
    w = w &&& 0xFFFFFFFFFFFFFEFF ||| if w.getLsbD 8 then 0x100 else 0 := by
  have hbit : (if w.getLsbD 8 then 0x100 else 0) = w &&& 0x100 := (BitVec.and_twoPow w 8).symm
  rw [hbit, ← BitVec.and_or_distrib_left]
  exact (and_wholeMask w).symm

/-- The masks of the table are these two, and each row's pattern, with the field E where the mask leaves it out, is the
encoding of what the row builds (R73). -/
theorem cmdTable_rows : ∀ r ∈ cmdTable, ∀ e : Bool,
    (r.mask = 0xFFFFFFFFFFFFFFFF ∧ encode (r.build (engineOfBit e)) = r.pat) ∨
    (r.mask = 0xFFFFFFFFFFFFFEFF ∧ encode (r.build (engineOfBit e)) = r.pat ||| if e then 0x100 else 0) := by
  decide

/-- A row of the table that selects a word builds the command of which the word is the encoding. -/
theorem encode_build_of_selects {r : CmdRow} {w : Word} (hr : r ∈ cmdTable) (h : r.selects w = true) :
    encode (r.build (engineOfBit (w.getLsbD 8))) = w := by
  have hpat : w &&& r.mask = r.pat := beq_iff_eq.mp h
  rcases cmdTable_rows r hr (w.getLsbD 8) with ⟨hm, he⟩ | ⟨hm, he⟩
  · rw [he, ← hpat, hm, and_wholeMask]
  · rw [he, ← hpat, hm, ← eq_and_engineMask_or_engineBit]

/-- The decoder accepts no word but the encoding of the command it answers (R73). -/
theorem encode_of_decode {w : Word} {i : Instr} (h : decode w = .ok i) : encode i = w := by
  unfold decode at h
  split at h
  · next r hr =>
    obtain rfl : r.build (engineOfBit (w.getLsbD 8)) = i := by simpa using h
    exact encode_build_of_selects (List.mem_of_find?_eq_some hr) (List.find?_some (p := fun r => CmdRow.selects r w) hr)
  · cases h

end Sys2Proof

namespace Sys2Proof.Machine

/-! ### What a host write changes, and what it leaves -/

/-- All that a write of a location can do while the block is idle, field by field (R18, R23, R24, R57). -/
theorem poke_eq (s : State) (r : Region) (v : Word) :
    s.poke r v = { s with
      cmd := if r = .reg .cmd then v else s.cmd
      pending := if r = .reg .cmd then some v else s.pending
      wait := if r = .reg .cmd then Config.latency s.draws else s.wait
      draws := if r = .reg .cmd then s.draws + 1 else s.draws
      status := if r = .reg .status then s.status.writeOneToClear v else s.status
      arg0 := if r = .reg .arg0 then v else s.arg0
      arg1 := if r = .reg .arg1 then v else s.arg1
      msglen := if r = .reg .msglen then v else s.msglen
      seed0 := if r = .reg .seed0 then v else s.seed0
      seed1 := if r = .reg .seed1 then v else s.seed1
      msgbuf := (s.poke r v).msgbuf } := by
  cases r with
  | reg r => cases r <;> rfl
  | msgWord w => rfl
  | bitWord w => rfl
  | reserved => rfl

/-- Only a write to a MSGBUF word changes the message buffer, and it changes that word (R57). -/
theorem poke_msgbuf (s : State) (r : Region) (v : Word) :
    (s.poke r v).msgbuf = s.msgbuf ∨ ∃ w, r = .msgWord w ∧ (s.poke r v).msgbuf = s.msgbuf.writeWord (8 * w) v := by
  cases r with
  | reg r => exact .inl (by cases r <;> rfl)
  | msgWord w => exact .inr ⟨w, rfl, rfl⟩
  | bitWord w => exact .inl rfl
  | reserved => exact .inl rfl

section
variable (s : State) (r : Region) (v : Word)

@[simp] theorem poke_params : (s.poke r v).params = s.params := by rw [poke_eq]
@[simp] theorem poke_result : (s.poke r v).result = s.result := by rw [poke_eq]
@[simp] theorem poke_m : (s.poke r v).m = s.m := by rw [poke_eq]
@[simp] theorem poke_k : (s.poke r v).k = s.k := by rw [poke_eq]
@[simp] theorem poke_setbits : (s.poke r v).setbits = s.setbits := by rw [poke_eq]
@[simp] theorem poke_cells : (s.poke r v).cells = s.cells := by rw [poke_eq]
@[simp] theorem poke_epoch : (s.poke r v).epoch = s.epoch := by rw [poke_eq]
@[simp] theorem poke_cmd : (s.poke r v).cmd = if r = .reg .cmd then v else s.cmd := by rw [poke_eq]
@[simp] theorem poke_pending : (s.poke r v).pending = if r = .reg .cmd then some v else s.pending := by rw [poke_eq]
@[simp] theorem poke_status :
    (s.poke r v).status = if r = .reg .status then s.status.writeOneToClear v else s.status := by rw [poke_eq]

end

/-- A request carries a register's offset only if it points to that register (R18, R48). -/
theorem eq_offset_of_regionAt {p : Params} {a : BitVec 21} {r : Reg} (h : regionAt p a.toNat = .reg r) :
    a = BitVec.ofNat 21 r.offset := by
  rw [← regionAt_eq_reg h, BitVec.ofNat_toNat, BitVec.setWidth_eq]

/-- A message byte written through its window lies in the buffer (R41, R57). -/
theorem msgWord_lt {p : Params} {o w j : Nat} (hp : p.Legal) (ho : o % 8 = 0) (h : regionAt p o = .msgWord w)
    (hj : 8 * w ≤ j ∧ j < 8 * w + 8) : j < p.msgmax ∧ o = 0x10000 + 8 * (j / 8) := by
  obtain ⟨hlo, hhi, hw⟩ := regionAt_eq_msgWord h
  obtain ⟨-, -, -, -, -, hmod, -⟩ := hp
  simp only [msgbufOffset] at hlo hhi hw
  omega

/-! ### Register accesses of a host -/

/-- The offset of a register is aligned, and a request carries it whole (R18, R47). -/
theorem regAddr_toNat (r : Reg) : (BitVec.ofNat 21 r.offset).toNat = r.offset := by cases r <;> rfl

theorem offset_aligned (r : Reg) : r.offset % 8 = 0 := by cases r <;> rfl

/-- A read of a register answers the value it holds, unless it is volatile and the block is busy (R18, R64). -/
theorem serve_read_reg {s : State} {r : Reg} (h : s.busy = false ∨ r.volatile = false) :
    serve (.read (BitVec.ofNat 21 r.offset)) s = answered s (some (s.readReg r)) false := by
  have hv : ¬ (s.busy = true ∧ (Region.reg r).volatile = true) := by
    rintro ⟨hb, hr⟩
    rcases h with h | h
    · simp [h] at hb
    · simp [Region.volatile, h] at hr
  rw [serve_read, regAddr_toNat, if_pos (offset_aligned r), regionAt_offset, if_neg hv]
  rfl

/-- A write of a register while the block is idle does what the register does with it (R18, R23, R24). -/
theorem serve_write_reg {s : State} (h : s.busy = false) (r : Reg) (v : Word) :
    serve (.write (BitVec.ofNat 21 r.offset) 0xFF v) s = answered (s.writeReg r v) none false := by
  rw [serve_write, regAddr_toNat, if_pos ⟨offset_aligned r, rfl⟩, if_neg (by simp [h]), regionAt_offset]
  rfl

/-- What the host sees in each register of a list: its offset, and the value it holds. -/
def registerValues (s : State) (rs : List Reg) : List (BitVec 21 × Word) :=
  rs.map fun r => (BitVec.ofNat 21 r.offset, s.readReg r)

/-! ### STATUS as a register -/

/-- A code's number is 0 only for OK, and at most 5 (R122). -/
theorem code_eq_zero_iff (c : ErrCode) : c.code = 0#8 ↔ c = .ok := by cases c <;> decide

theorem code_le (c : ErrCode) : c.code ≤ 0x05#8 := by cases c <;> decide

/-- STATUS bit by bit (R24): the five flags, and ERRCODE in bits 8 to 15. -/
theorem statusWord_getLsbD (s : State) :
    s.statusWord.getLsbD 0 = s.busy ∧ s.statusWord.getLsbD 1 = s.status.configured ∧
    s.statusWord.getLsbD 2 = s.status.err ∧ s.statusWord.getLsbD 3 = s.status.sticky ∧
    s.statusWord.getLsbD 4 = s.status.ovr ∧
    ∀ i, i < 8 → s.statusWord.getLsbD (8 + i) = s.status.errcode.code.getLsbD i := by
  have h : ∀ i, s.statusWord.getLsbD i = BitVec.getLsbD (w := 48 + 8 + 3 + 1 + 1 + 1 + 1 + 1) s.statusWord i :=
    fun _ => rfl
  simp only [h]
  unfold State.statusWord
  simp only [BitVec.getLsbD_append]
  simpa using fun i hi _ => hi

/-- STATUS reads 0 after reset (R45). -/
theorem statusWord_resetWith (p : Params) (epoch draws : Nat) : (State.resetWith p epoch draws).statusWord = 0 := by
  simp [State.statusWord, State.resetWith, Status.err, State.busy, ErrCode.code]

/-! ### What a step is -/

/-- While the block is idle a step is a turn of the host (R16). -/
theorem step_of_idle {s : State} (h : s.pending = none) : step s = .next (hostTurn s) := by simp [step, h]

/-- While a command is pending and not due a step is a turn of the host, and its latency runs (R150). -/
theorem step_of_waiting {s : State} {w : Word} {n : Nat} (h : s.pending = some w) (hn : s.wait = n + 1) :
    step s = .next (hostTurn { s with wait := n }) := by simp [step, h, hn]

/-- So the host has its turn unless a completion is due. -/
theorem step_of_not_due {s : State} (h : s.pending = none ∨ 0 < s.wait) :
    ∃ n, step s = .next (hostTurn { s with wait := n }) := by
  rcases Option.eq_none_or_eq_some s.pending with hp | ⟨w, hp⟩
  · exact ⟨s.wait, step_of_idle hp⟩
  · obtain ⟨n, hn⟩ := Nat.exists_eq_add_one.mpr (h.resolve_left (by simp [hp]))
    exact ⟨n, step_of_waiting hp hn⟩

/-- The host's turn when a reset is next (R138). -/
theorem hostTurn_hardReset {s : State} {rest : List HostOp} (h : s.todo = .hardReset :: rest) :
    hostTurn s = hardReset { s with todo := rest } := by
  simp [hostTurn, h]

/-- All that the step from s to t can be: the completion of the pending word, or a turn of the host that resets the
block, changes no state of it, has a write dropped, or has a write carried out (R16, R63, R65). -/
inductive StepIs (s t : State) : Prop where
  /-- The core completes w. -/
  | completion (w : Word) (due : completing s = some w) (completes : completeWord w s = .next t)
  /-- The host resets the block (R138). -/
  | reset (n : Nat) (rest : List HostOp) (host : completing s = none) (op : resetting s)
      (eq : t = hardReset { s with wait := n, todo := rest })
  /-- The host is idle, reads, or presents a malformed write (R50, R56). -/
  | harmless (n d : Nat) (rest : List HostOp) (rs : List BusResponse) (host : completing s = none)
      (op : ∀ a v, hostMove s = some (.request (.write a 0xFF v)) → a.toNat % 8 ≠ 0)
      (eq : t = { s with wait := n, draws := d, todo := rest, responses := rs })
  /-- A well-formed write is dropped (R65). -/
  | dropped (a : BitVec 21) (v : Word) (n : Nat) (rest : List HostOp) (host : completing s = none)
      (op : hostMove s = some (.request (.write a 0xFF v))) (aligned : a.toNat % 8 = 0) (busy : s.busy = true)
      (eq : t = ({ s with wait := n, todo := rest, status := s.status.dropWrite }).respond
        { rdata := none, err := false })
  /-- A well-formed write is carried out. -/
  | written (a : BitVec 21) (v : Word) (rest : List HostOp) (host : completing s = none)
      (op : hostMove s = some (.request (.write a 0xFF v))) (aligned : a.toNat % 8 = 0) (idle : s.busy = false)
      (eq : t = (({ s with todo := rest }).poke (regionAt s.params a.toNat) v).respond { rdata := none, err := false })

/-- BUSY is 0 only while no word is pending (R42). -/
theorem pending_eq_none_of_idle {s : State} (h : s.busy = false) : s.pending = none := by
  simpa [State.busy] using h

/-- Every step is one of these. -/
theorem stepIs_of_step {s t : State} (h : step s = .next t) : StepIs s t := by
  rcases step_cases h with ⟨w, hw, hd⟩ | ⟨n, hc, rfl, hn⟩
  · exact .completion w hw hd
  have head : ∀ {op rest}, s.todo = op :: rest → hostMove s = some op := fun ho => by
    rw [hostMove_of_completing hc, ho]; rfl
  rcases hostTurn_cases { s with wait := n } with ⟨ho, ht⟩ | ⟨rest, ho, ht⟩ | ⟨op, rest, d, rs, ho, -, hw, -, ht⟩ |
    ⟨a, v, rest, ho, ha, hb, ht⟩ | ⟨a, v, rest, ho, ha, hb, ht⟩
  · refine .harmless n s.draws s.todo s.responses hc (fun a v hop => ?_) ht
    rw [hostMove_of_completing hc, ho] at hop
    cases hop
  · exact .reset n rest hc (head ho) ht
  · refine .harmless n d _ rs hc (fun a v hop => hw a v ?_) ht
    rw [head ho] at hop
    exact Option.some.inj hop
  · exact .dropped a v n rest hc (head ho) ha hb ht
  · obtain rfl := hn (pending_eq_none_of_idle hb)
    exact .written a v rest hc (head ho) ha hb ht

/-- A write that reaches a register is a write of that register's offset. -/
theorem hostMove_write_of_region {s : State} {a : BitVec 21} {v : Word} {r : Reg}
    (op : hostMove s = some (.request (.write a 0xFF v))) (hr : regionAt s.params a.toNat = .reg r) :
    hostMove s = some (.request (.write (BitVec.ofNat 21 r.offset) 0xFF v)) := by
  rw [← eq_offset_of_regionAt hr, op]

/-- All that a step can do to STATUS: complete a word, reset it, leave it, set OVR at a dropped write, or clear by ones
at a write to STATUS (R24, R28, R29). -/
theorem step_status {s t : State} (h : step s = .next t) :
    (∃ w, completing s = some w ∧ completeWord w s = .next t) ∨
    (completing s = none ∧ resetting s ∧
      t.status = { configured := false, sticky := false, ovr := false, errcode := .ok }) ∨
    (completing s = none ∧ t.status = s.status ∧
      ∀ a v, hostMove s = some (.request (.write a 0xFF v)) → a.toNat % 8 = 0 → s.busy = false) ∨
    (completing s = none ∧ t.status = s.status.dropWrite ∧ s.busy = true ∧
      ∃ a v, hostMove s = some (.request (.write a 0xFF v)) ∧ a.toNat % 8 = 0) ∨
    (completing s = none ∧ s.busy = false ∧
      ∃ v, hostMove s = some (.request (.write 0x28 0xFF v)) ∧ t.status = s.status.writeOneToClear v) := by
  cases stepIs_of_step h with
  | completion w due completes => exact .inl ⟨w, due, completes⟩
  | reset n rest host op eq => exact .inr (.inl ⟨host, op, by rw [eq]; rfl⟩)
  | harmless n d rest rs host op eq =>
    exact .inr (.inr (.inl ⟨host, by rw [eq], fun a v ho ha => absurd ha (op a v ho)⟩))
  | dropped a v n rest host op aligned busy eq =>
    exact .inr (.inr (.inr (.inl ⟨host, by simp [eq], busy, a, v, op, aligned⟩)))
  | written a v rest host op aligned idle eq =>
    by_cases hr : regionAt s.params a.toNat = .reg .status
    · exact .inr (.inr (.inr (.inr ⟨host, idle, v, hostMove_write_of_region op hr, by simp [eq, hr]⟩)))
    · exact .inr (.inr (.inl ⟨host, by simp [eq, hr], fun _ _ _ _ => idle⟩))

/-! ### What a completion is -/

/-- A successful effect writes no more than the results. -/
theorem writesOnlyResults_of_effectOf {i : Instr} {s u : State} (h : effectOf i s = .ok u) : writesOnlyResults s u := by
  rcases effectOf_cases i s with ⟨c, hc, -⟩ | ⟨u', hu, hf⟩
  · rw [hc] at h; cases h
  · obtain rfl : u' = u := by simpa [hu] using h
    exact hf

/-- A command ends in an error's state (R126) or with its whole effect (R63). -/
theorem exec_outcome {i : Instr} {s t : State} (h : exec i s = .next t) :
    (∃ c, c ≠ .ok ∧ t = errorState s c) ∨ ∃ u, effectOf i s = .ok u ∧ t = u.succeed := by
  rcases exec_cases h with ⟨c, -, hc, -, ht⟩ | ⟨u, hu, ht, -⟩
  · exact .inl ⟨c, hc, ht⟩
  · exact .inr ⟨u, hu, ht⟩

/-- The completion of a word ends in an error's state, or with the whole effect of the command whose encoding the word
is (R63, R73, R123). -/
theorem completeWord_outcome {w : Word} {s t : State} (h : completeWord w s = .next t) :
    (∃ c, c ≠ .ok ∧ t = errorState s c) ∨ ∃ i u, encode i = w ∧ effectOf i s = .ok u ∧ t = u.succeed := by
  rcases completeWord_cases h with ⟨i, hi, he⟩ | ⟨r, -, ht⟩
  · rcases exec_outcome he with hc | ⟨u, hu, ht⟩
    · exact .inl hc
    · exact .inr ⟨i, u, encode_of_decode hi, hu, ht⟩
  · exact .inl ⟨.illegalCmd, by decide, ht⟩

/-- An error writes no input (R126). -/
theorem keepsInputs_errorState (s : State) (c : ErrCode) : KeepsInputs s (errorState s c) := by
  constructor <;> intros <;> rfl

/-- A success that writes no more than the results, field by field (R27, R63). -/
theorem succeed_of_writesOnlyResults {s u : State} (h : writesOnlyResults s u) :
    u.succeed = { s with
      result := u.result, m := u.m, k := u.k, setbits := u.setbits, eng0 := u.eng0, eng1 := u.eng1, cells := u.cells,
      status := { s.status with configured := u.status.configured, errcode := .ok }, pending := none } := by
  unfold writesOnlyResults at h
  rw [State.succeed_eq, h]

/-- So it writes no input. -/
theorem keepsInputs_succeed {s u : State} (h : writesOnlyResults s u) : KeepsInputs s u.succeed := by
  rw [succeed_of_writesOnlyResults h]
  constructor <;> intros <;> rfl

/-- The completion of a word, legal or not, writes no input and ends BUSY (R63). -/
theorem completeWord_keepsInputs {w : Word} {s t : State} (h : completeWord w s = .next t) :
    KeepsInputs s t ∧ t.busy = false := by
  rcases completeWord_outcome h with ⟨c, -, rfl⟩ | ⟨i, u, -, hu, rfl⟩
  · exact ⟨keepsInputs_errorState s c, rfl⟩
  · exact ⟨keepsInputs_succeed (writesOnlyResults_of_effectOf hu), rfl⟩

/-- A completion sets STICKY if and only if its code is not OK, and clears it never (R28). -/
theorem completeWord_sticky {w : Word} {s t : State} (h : completeWord w s = .next t) :
    t.status.sticky = (s.status.sticky || t.status.err) := by
  rcases completeWord_outcome h with ⟨c, hc, rfl⟩ | ⟨i, u, -, hu, rfl⟩
  · simp [errorState, Status.err, hc]
  · rw [succeed_of_writesOnlyResults (writesOnlyResults_of_effectOf hu)]
    simp [Status.err]

/-! ### What a successful effect is -/

section
variable {s u : State}

/-- CONFIGURE succeeds on a legal geometry (R112). -/
theorem configureEffect_eq_ok (h : configureEffect s = .ok u) : s.badGeometry = false ∧ u = configured s := by
  cases hb : s.badGeometry with
  | true => simp [configureEffect_bad hb] at h
  | false => exact ⟨rfl, by simpa [configureEffect_ok hb, eq_comm] using h⟩

/-- CLEAR succeeds on a configured block (R102). -/
theorem clearEffect_eq_ok (h : clearEffect s = .ok u) : s.status.configured = true ∧ u = s.clearCells := by
  cases hc : s.status.configured with
  | false => simp [clearEffect_unconfigured hc] at h
  | true => exact ⟨rfl, by simpa [clearEffect_ok hc, eq_comm] using h⟩

/-- HWRITE e succeeds with a digest in engine e (R89). -/
theorem hwriteEffect_eq_ok {e : EngineSel} (h : hwriteEffect e s = .ok u) : ∃ d, u = s.setEngine e d := by
  cases hl : s.messageTooLong with
  | true => simp [hwriteEffect_long hl] at h
  | false => exact ⟨_, by simpa [hwriteEffect_ok hl, eq_comm] using h⟩

/-- INDEX succeeds with a value in RESULT (R98). -/
theorem indexEffect_eq_ok (h : indexEffect s = .ok u) : ∃ r, u = s.setResult r := by
  rcases range_cases s.k s.arg0 s.status.configured with hc | ⟨hc, hr⟩ | ⟨hc, hr⟩
  · simp [indexEffect_unconfigured hc] at h
  · simp [indexEffect_range hc hr] at h
  · exact ⟨_, by simpa [indexEffect_ok hc hr, eq_comm] using h⟩

/-- TEST succeeds with a value in RESULT (R104). -/
theorem testEffect_eq_ok (h : testEffect s = .ok u) : ∃ r, u = s.setResult r := by
  rcases range_cases s.m s.arg0 s.status.configured with hc | ⟨hc, hr⟩ | ⟨hc, hr⟩
  · simp [testEffect_unconfigured hc] at h
  · simp [testEffect_range hc hr] at h
  · exact ⟨_, by rw [testEffect_ok hc hr] at h; exact (Except.ok.inj h).symm⟩

/-- MARK succeeds on a cell below M of a configured block: it marks that cell (R105). -/
theorem markEffect_eq_ok (h : markEffect s = .ok u) : s.status.configured = true ∧ s.arg0.toNat < s.m.toNat ∧
    u = (markCell s.arg0.toNat s).1.setResult (markCell s.arg0.toNat s).2 := by
  rcases range_cases s.m s.arg0 s.status.configured with hc | ⟨hc, hr⟩ | ⟨hc, hr⟩
  · simp [markEffect_unconfigured hc] at h
  · simp [markEffect_range hc hr] at h
  · exact ⟨hc, hr, by simpa [markEffect_ok hc hr, eq_comm] using h⟩

/-- SET succeeds on a configured block: it marks the positions of the digested message (R114). -/
theorem setEffect_eq_ok (h : setEffect s = .ok u) : s.status.configured = true ∧
    u = (markCells (digestBoth s).enginePositions (digestBoth s)).1.setResult
      (markCells (digestBoth s).enginePositions (digestBoth s)).2 := by
  rcases long_cases s.messageTooLong s.status.configured with hc | ⟨hc, hl⟩ | ⟨hc, hl⟩
  · simp [setEffect_unconfigured hc] at h
  · simp [setEffect_long hc hl] at h
  · rw [setEffect_ok hc hl] at h
    exact ⟨hc, (Except.ok.inj h).symm⟩

/-- INCLUDES succeeds with the digests in the engines and a value in RESULT (R116). -/
theorem includesEffect_eq_ok (h : includesEffect s = .ok u) : ∃ r, u = (digestBoth s).setResult r := by
  rcases long_cases s.messageTooLong s.status.configured with hc | ⟨hc, hl⟩ | ⟨hc, hl⟩
  · simp [includesEffect_unconfigured hc] at h
  · simp [includesEffect_long hc hl] at h
  · rw [includesEffect_ok hc hl] at h
    exact ⟨_, (Except.ok.inj h).symm⟩

/-- The successful part of CONFIGURE, field by field (R112). -/
theorem configured_eq (s : State) : configured s = { s with
    m := s.arg0, k := s.arg1, cells := { cleared := true, ones := [] }, setbits := 0,
    eng0 := ⟨s.seed0, s.seed0⟩, eng1 := ⟨s.seed1, s.seed1⟩, status := { s.status with configured := true } } := rfl

/-- The commands that write RESULT (R31). -/
def resultCommands : List Instr := [.index, .test, .mark, .popcnt, .set, .includes]

/-- No other command's effect changes RESULT. -/
theorem effectOf_result {i : Instr} (h : effectOf i s = .ok u) (hi : i ∉ resultCommands) : u.result = s.result := by
  cases i with
  | nop => cases h; rfl
  | configure =>
    obtain ⟨-, rfl⟩ := configureEffect_eq_ok h
    rw [configured_eq]
  | clear =>
    obtain ⟨-, rfl⟩ := clearEffect_eq_ok h
    simp
  | hreset e =>
    cases h
    simp
  | hwrite e =>
    obtain ⟨d, rfl⟩ := hwriteEffect_eq_ok h
    simp
  | index | test | mark | popcnt | set | includes => exact absurd (by decide) hi

end

/-- A completion changes RESULT only as the success of a command that writes it (R31). -/
theorem completeWord_result {w : Word} {s t : State} (h : completeWord w s = .next t) (hr : t.result ≠ s.result) :
    t.status.errcode = .ok ∧ ∃ i ∈ resultCommands, encode i = w := by
  rcases completeWord_outcome h with ⟨c, -, rfl⟩ | ⟨i, u, hw, hu, rfl⟩
  · exact absurd rfl hr
  · exact ⟨rfl, i, by_contra fun hi => hr ((State.succeed_result u).trans (effectOf_result hu hi)), hw⟩

/-! ### The invariant -/

/-- The bit vector and its geometry are the same in both states. -/
structure SameVector (s t : State) : Prop where
  params : t.params = s.params
  cells : t.cells = s.cells
  m : t.m = s.m
  k : t.k = s.k
  setbits : t.setbits = s.setbits
  epoch : t.epoch = s.epoch
  configured : t.status.configured = s.status.configured

/-- The invariant speaks of the bit vector with its geometry, the message buffer, and the pending word alone. -/
theorem Inv.of_sameVector {s t : State} (hi : Inv s) (hv : SameVector s t) (hwf : t.msgbuf.wf)
    (hbound : ∀ c ∈ t.msgbuf, c.1 < s.params.msgmax) (hp : ∀ w, t.pending = some w → t.cmd = w) : Inv t where
  legal := hv.params ▸ hi.legal
  msgbufWf := hwf
  msgbufBound := hv.params ▸ hbound
  cellsWf := hv.cells ▸ hi.cellsWf
  cellsBound := by rw [hv.cells, hv.m]; exact hi.cellsBound
  count := by
    rw [hv.setbits, hv.m, State.countCells_congr fun j _ => State.bit_congr hv.cells hv.epoch j]
    exact hi.count
  geometry := by rw [hv.configured, hv.cells, hv.m, hv.k, hv.params]; exact hi.geometry
  blank := by rw [hv.configured, hv.m, hv.k]; exact hi.blank
  pendingCmd := hp

/-- What changes neither the bit vector nor the message buffer nor the pending word keeps the invariant. -/
theorem Inv.of_same {s t : State} (hi : Inv s) (hv : SameVector s t) (hm : t.msgbuf = s.msgbuf)
    (hp : ∀ w, t.pending = some w → t.cmd = w) : Inv t :=
  hi.of_sameVector hv (hm ▸ hi.msgbufWf) (hm ▸ hi.msgbufBound) hp

/-- Setting a clear cell below n raises the count below n by one (R107). -/
theorem countCells_setCell {s : State} {j n : Nat} (hb : s.bit j = false) (hj : j < n) :
    (s.setCell j).countCells n = s.countCells n + 1 := by
  induction n with
  | zero => omega
  | succ n ih =>
    simp only [State.countCells, State.bit_setCell]
    rcases Nat.lt_succ_iff_lt_or_eq.mp hj with hlt | rfl
    · have hne : n ≠ j := by omega
      simp only [ih hlt, hne, decide_false, Bool.or_false]
      omega
    · have below : (s.setCell j).countCells j = s.countCells j :=
        State.countCells_congr fun i hi => by simp [show i ≠ j by omega]
      simp [below, hb]

/-- M of a block that meets the invariant is at most the capacity (R32). -/
theorem Inv.m_le {s : State} (hi : Inv s) : s.m.toNat ≤ s.params.mmax := by
  cases hc : s.status.configured with
  | false => simp [(hi.blank hc).1]
  | true =>
    obtain ⟨-, -, hm, -⟩ := hi.geometry hc
    exact hm

/-- Marking a cell below M keeps the invariant: SETBITS follows the count (R40(b), R103). -/
theorem Inv.markCell {s : State} {j : Nat} (hi : Inv s) (hj : j < s.m.toNat) : Inv (markCell j s).1 := by
  obtain ⟨hwf, hcl, hones⟩ := markCell_cells (j := j) hi.cellsWf
  unfold Machine.markCell at hwf hcl hones ⊢
  cases hb : s.bit j with
  | true => simpa [hb] using hi
  | false =>
    simp only [hb, Bool.false_eq_true, if_false] at hwf hcl hones ⊢
    refine ⟨hi.legal, hi.msgbufWf, hi.msgbufBound, hwf, fun i hm => ?_, ?_, ?_, hi.blank, hi.pendingCmd⟩
    · rcases hones i hm with rfl | hm
      · exact hj
      · exact hi.cellsBound i hm
    · have hcount : State.countCells { s.setCell j with setbits := s.setbits + 1 } s.m.toNat = s.setbits.toNat + 1 := by
        rw [hi.count, ← countCells_setCell hb hj]
        exact State.countCells_congr fun _ _ => rfl
      have hlt : s.setbits.toNat + 1 < 2 ^ 64 := by
        have := s.countCells_le s.m.toNat
        have := hi.count
        have := hi.m_le
        obtain ⟨-, -, hmmax, -⟩ := hi.legal
        omega
      exact (BitVec.toNat_add_of_lt hlt).trans hcount.symm
    · rw [hcl]
      exact hi.geometry

/-- Marking any cells below M keeps the invariant. -/
theorem Inv.markCells {s : State} {js : List Nat} (hi : Inv s) (hj : ∀ j ∈ js, j < s.m.toNat) :
    Inv (markCells js s).1 := by
  induction js generalizing s with
  | nil => exact hi
  | cons j js ih =>
    have hm : (Machine.markCell j s).1.m = s.m := by
      obtain ⟨c, hc⟩ := markCell_frame j s
      rw [hc]
    rw [markCells_cons]
    refine ih (hi.markCell (hj j List.mem_cons_self)) fun i hmem => ?_
    rw [hm]
    exact hj i (List.mem_cons_of_mem j hmem)

/-- Writing RESULT keeps the invariant. -/
theorem Inv.setResult {s : State} (hi : Inv s) (r : Word) : Inv (s.setResult r) :=
  hi.of_same ⟨rfl, rfl, rfl, rfl, rfl, rfl, rfl⟩ rfl hi.pendingCmd

/-- Writing an engine keeps the invariant. -/
theorem Inv.setEngine {s : State} (hi : Inv s) (e : EngineSel) (h : EngineWords) : Inv (s.setEngine e h) :=
  hi.of_same (by constructor <;> simp) (by simp) (by simpa using hi.pendingCmd)

/-- Digesting the message keeps the invariant. -/
theorem Inv.digestBoth {s : State} (hi : Inv s) : Inv (digestBoth s) := (hi.setEngine _ _).setEngine _ _

/-- A count of cells that are all 0 (R107). -/
theorem countCells_eq_zero {s : State} {n : Nat} (h : ∀ j, s.bit j = false) : s.countCells n = 0 := by
  simp [State.countCells_eq_card, h]

/-- Emptying the vector keeps the invariant (R102). -/
theorem Inv.clearCells {s : State} (hi : Inv s) : Inv s.clearCells where
  legal := hi.legal
  msgbufWf := hi.msgbufWf
  msgbufBound := hi.msgbufBound
  cellsWf := List.Pairwise.nil
  cellsBound := nofun
  count := (countCells_eq_zero (State.bit_clearCells s)).symm
  geometry := fun hc => ⟨rfl, (hi.geometry hc).2⟩
  blank := hi.blank
  pendingCmd := hi.pendingCmd

/-- A new filter of a legal geometry meets the invariant (R112, R32, R33). -/
theorem Inv.configured {s : State} (hi : Inv s) (hg : s.badGeometry = false) : Inv (configured s) := by
  rw [configured_eq]
  refine ⟨hi.legal, hi.msgbufWf, hi.msgbufBound, List.Pairwise.nil, nofun, ?_, fun _ => ?_, nofun, hi.pendingCmd⟩
  · exact (countCells_eq_zero fun j => by simp [State.bit]).symm
  · have hpos : ∀ x : Word, x ≠ 0 → 1 ≤ x.toNat := fun x hx =>
      Nat.one_le_iff_ne_zero.mpr fun h0 => hx (BitVec.eq_of_toNat_eq h0)
    have hok := mt badGeometry_iff.mpr (Bool.eq_false_iff.mp hg)
    simp only [not_or, not_lt] at hok
    obtain ⟨hm, hmle, hk, hkle⟩ := hok
    exact ⟨rfl, hpos _ hm, hmle, hpos _ hk, hkle⟩

/-- On a configured block every position lies below M (R99, R101). -/
theorem Inv.enginePositions_lt {s : State} (hi : Inv s) (hc : s.status.configured = true) :
    ∀ j ∈ s.enginePositions, j < s.m.toNat := by
  intro j hj
  obtain ⟨i, -, rfl⟩ := (mem_positions ..).mp hj
  obtain ⟨-, hm, -⟩ := hi.geometry hc
  exact modWord_lt _ _ fun h0 => by simp [h0] at hm

/-- A successful effect keeps the invariant. -/
theorem Inv.effectOf {i : Instr} {s u : State} (hi : Inv s) (h : effectOf i s = .ok u) : Inv u := by
  cases i with
  | nop => cases h; exact hi
  | configure =>
    obtain ⟨hg, rfl⟩ := configureEffect_eq_ok h
    exact hi.configured hg
  | clear =>
    obtain ⟨-, rfl⟩ := clearEffect_eq_ok h
    exact hi.clearCells
  | hreset e => cases h; exact hi.setEngine e _
  | hwrite e =>
    obtain ⟨d, rfl⟩ := hwriteEffect_eq_ok h
    exact hi.setEngine e d
  | index =>
    obtain ⟨r, rfl⟩ := indexEffect_eq_ok h
    exact hi.setResult r
  | test =>
    obtain ⟨r, rfl⟩ := testEffect_eq_ok h
    exact hi.setResult r
  | mark =>
    obtain ⟨-, hj, rfl⟩ := markEffect_eq_ok h
    exact (hi.markCell hj).setResult _
  | popcnt => cases h; exact hi.setResult _
  | set =>
    obtain ⟨hc, rfl⟩ := setEffect_eq_ok h
    have hpos := hi.digestBoth.enginePositions_lt (by simpa using hc)
    exact (hi.digestBoth.markCells hpos).setResult _
  | includes =>
    obtain ⟨r, rfl⟩ := includesEffect_eq_ok h
    exact hi.digestBoth.setResult r

/-- The completion of a word, legal or not, keeps the invariant. -/
theorem Inv.completeWord {w : Word} {s t : State} (hi : Inv s) (h : completeWord w s = .next t) : Inv t := by
  rcases completeWord_outcome h with ⟨c, -, rfl⟩ | ⟨i, u, -, hu, rfl⟩
  · exact hi.of_same ⟨rfl, rfl, rfl, rfl, rfl, rfl, rfl⟩ rfl nofun
  · exact (hi.effectOf hu).of_same ⟨rfl, rfl, rfl, rfl, rfl, rfl, rfl⟩ rfl nofun

/-- The reset state of a block with legal parameters meets the invariant (R40, R45). -/
theorem inv_resetWith {p : Params} (hp : p.Legal) (epoch draws : Nat) : Inv (State.resetWith p epoch draws) where
  legal := hp
  msgbufWf := Memory.reset_wf p epoch draws
  msgbufBound := nofun
  cellsWf := List.Pairwise.nil
  cellsBound := nofun
  count := rfl
  geometry := nofun
  blank := fun _ => ⟨rfl, rfl⟩
  pendingCmd := nofun

/-- A hardware reset establishes the invariant. -/
theorem inv_hardReset {s : State} (hp : s.params.Legal) : Inv (hardReset s) :=
  (inv_resetWith hp (s.epoch + 1) s.draws).of_same ⟨rfl, rfl, rfl, rfl, rfl, rfl, rfl⟩ rfl nofun

/-- A write of a location keeps the invariant. -/
theorem Inv.poke {s : State} {o : Nat} (hi : Inv s) (ho : o % 8 = 0) (v : Word) :
    Inv (s.poke (regionAt s.params o) v) := by
  have hv : SameVector s (s.poke (regionAt s.params o) v) := by
    constructor <;> simp [apply_ite Status.configured, Status.writeOneToClear]
  have hp : ∀ w, (s.poke (regionAt s.params o) v).pending = some w → (s.poke (regionAt s.params o) v).cmd = w := by
    intro w
    rw [poke_pending, poke_cmd]
    split
    · exact Option.some.inj
    · exact hi.pendingCmd w
  rcases poke_msgbuf s (regionAt s.params o) v with hm | ⟨w, hr, hm⟩
  · exact hi.of_same hv hm hp
  · refine hi.of_sameVector hv (hm ▸ Memory.writeWord_wf hi.msgbufWf _ v) (fun c hc => ?_) hp
    rw [hm] at hc
    rcases Memory.mem_writeWord hc with hj | hc
    · exact (msgWord_lt hi.legal ho hr hj).1
    · exact hi.msgbufBound c hc

/-- Every step keeps the invariant. -/
theorem Inv.step {s t : State} (hi : Inv s) (h : step s = .next t) : Inv t := by
  cases stepIs_of_step h with
  | completion w due completes => exact hi.completeWord completes
  | reset n rest host op eq => exact eq ▸ inv_hardReset hi.legal
  | harmless n d rest rs host op eq =>
    subst eq
    exact hi.of_same ⟨rfl, rfl, rfl, rfl, rfl, rfl, rfl⟩ rfl hi.pendingCmd
  | dropped a v n rest host op aligned busy eq =>
    subst eq
    exact hi.of_same ⟨rfl, rfl, rfl, rfl, rfl, rfl, rfl⟩ rfl hi.pendingCmd
  | written a v rest host op aligned idle eq =>
    subst eq
    have hq : Inv { s with todo := rest } := hi.of_same ⟨rfl, rfl, rfl, rfl, rfl, rfl, rfl⟩ rfl hi.pendingCmd
    have hw := hq.poke aligned v
    exact hw.of_same ⟨rfl, rfl, rfl, rfl, rfl, rfl, rfl⟩ rfl hw.pendingCmd

/-! ### The obligations -/

/-- Settles O53, through what a step can be: a completion, a reset, or a host access. -/
theorem everyStepKeepsTheInvariant : Obligations.EveryStepKeepsTheInvariant := by
  unfold Obligations.EveryStepKeepsTheInvariant
  exact fun s t hi h => hi.step h

/-- Settles O54: nothing is listed in the reset state, and M, K and SETBITS are 0. -/
theorem invariantHoldsAfterReset : Obligations.InvariantHoldsAfterReset := by
  unfold Obligations.InvariantHoldsAfterReset
  exact ⟨inv_resetWith (by decide) 0 0, fun p epoch draws hp => inv_resetWith hp epoch draws⟩

/-- Settles O43: a completion is an error, which writes STATUS and BUSY alone, or a success, which writes the results. -/
theorem commandsNeverWriteTheirInputs : Obligations.CommandsNeverWriteTheirInputs := by
  unfold Obligations.CommandsNeverWriteTheirInputs
  intro i s t h
  rcases exec_outcome h with ⟨c, -, rfl⟩ | ⟨u, hu, rfl⟩
  · exact ⟨keepsInputs_errorState s c, rfl⟩
  · exact ⟨keepsInputs_succeed (writesOnlyResults_of_effectOf hu), rfl⟩

/-- Settles O44: no host access but a reset writes RESULT, and a completion writes it only as the success of one of the
six commands. -/
theorem resultIsOnlyWrittenByItsCommands : Obligations.ResultIsOnlyWrittenByItsCommands := by
  unfold Obligations.ResultIsOnlyWrittenByItsCommands
  intro s t h hr
  cases stepIs_of_step h with
  | completion w due completes =>
    obtain ⟨hok, i, hi, rfl⟩ := completeWord_result completes hr
    exact .inr ⟨hok, i, hi, due⟩
  | reset n rest host op eq => exact .inl op
  | harmless n d rest rs host op eq => exact absurd (by rw [eq]) hr
  | dropped a v n rest host op aligned busy eq => exact absurd (by simp [eq]) hr
  | written a v rest host op aligned idle eq => exact absurd (by simp [eq]) hr

/-- Settles O49: the one host access that accepts a word is a write to CMD, and it is dropped while BUSY = 1. -/
theorem busyFollowsAcceptanceAndCompletion : Obligations.BusyFollowsAcceptanceAndCompletion := by
  unfold Obligations.BusyFollowsAcceptanceAndCompletion
  intro s t h
  cases stepIs_of_step h with
  | completion w due completes =>
    obtain ⟨-, hidle⟩ := completeWord_keepsInputs completes
    exact ⟨by simp [hidle], fun _ _ => .inl (by simp [due]), by simp [hidle]⟩
  | reset n rest host op eq =>
    have hidle : t.busy = false := by rw [eq]; rfl
    exact ⟨by simp [hidle], fun _ _ => .inr op, by simp [hidle]⟩
  | harmless n d rest rs host op eq =>
    have hsame : t.pending = s.pending := by rw [eq]
    exact ⟨by simp +contextual [State.busy, hsame], by simp +contextual [State.busy, hsame], fun _ _ => hsame⟩
  | dropped a v n rest host op aligned busy eq =>
    have hsame : t.pending = s.pending := by simp [eq]
    exact ⟨by simp [busy], by simp +contextual [State.busy, hsame], fun _ _ => hsame⟩
  | written a v rest host op aligned idle eq =>
    refine ⟨fun _ hb => ?_, by simp [idle], by simp [idle]⟩
    by_cases hr : regionAt s.params a.toNat = .reg .cmd
    · exact ⟨v, hostMove_write_of_region op hr, by simp [eq, hr], by simp [eq, hr]⟩
    · simp [State.busy, eq, hr, pending_eq_none_of_idle idle] at hb

/-- Settles O50: a completion adds its error to STICKY, and the one host access that changes STICKY is a write to
STATUS. -/
theorem stickyIsSetByErrorsAndClearedByOnes : Obligations.StickyIsSetByErrorsAndClearedByOnes := by
  unfold Obligations.StickyIsSetByErrorsAndClearedByOnes
  intro s t h
  rcases step_status h with ⟨w, due, completes⟩ | ⟨host, op, hst⟩ | ⟨host, hst, -⟩ | ⟨host, hst, -⟩ |
    ⟨host, idle, v, op, hst⟩
  · have hs := completeWord_sticky completes
    refine ⟨fun _ he => ?_, fun h0 h1 => ⟨by simp [due], ?_⟩, fun h1 h0 => ?_⟩
    · simp [hs, Status.err, he]
    · simpa [hs, h0, Status.err] using h1
    · simp [hs, h1] at h0
  · exact ⟨by simp [host], by simp [hst], fun _ _ => .inl op⟩
  · exact ⟨by simp [host], by simp +contextual [hst], by simp +contextual [hst]⟩
  · exact ⟨by simp [host], by simp +contextual [hst, Status.dropWrite], by simp +contextual [hst, Status.dropWrite]⟩
  · refine ⟨by simp [host], by simp +contextual [hst, Status.writeOneToClear], fun h1 h0 => .inr ⟨v, op, ?_, idle⟩⟩
    simpa [hst, Status.writeOneToClear, h1] using h0

/-- Settles O51: no completion writes OVR, a dropped write sets it, and the one host access that clears it is a write to
STATUS. -/
theorem ovrIsSetByDroppedWritesAndClearedByOnes : Obligations.OvrIsSetByDroppedWritesAndClearedByOnes := by
  unfold Obligations.OvrIsSetByDroppedWritesAndClearedByOnes
  intro s t h
  rcases step_status h with ⟨w, due, completes⟩ | ⟨host, op, hst⟩ | ⟨host, hst, hidle⟩ | ⟨host, hst, busy, drop⟩ |
    ⟨host, idle, v, op, hst⟩
  · have hsame := (completeWord_keepsInputs completes).1.ovr
    exact ⟨by simp [hostMove, due], by simp +contextual [hsame], by simp +contextual [hsame]⟩
  · exact ⟨by simp [op], by simp [hst], fun _ _ => .inl op⟩
  · refine ⟨fun a v op ha hb => ?_, by simp +contextual [hst], by simp +contextual [hst]⟩
    simp [hidle a v op ha] at hb
  · exact ⟨by simp [hst, Status.dropWrite], fun _ _ => ⟨busy, drop⟩, by simp [hst, Status.dropWrite]⟩
  · refine ⟨by simp [idle], by simp +contextual [hst, Status.writeOneToClear], fun h1 h0 => .inr ⟨v, op, ?_, idle⟩⟩
    simpa [hst, Status.writeOneToClear, h1] using h0

/-- Settles O52: only a reset and a write of a MSGBUF word change the buffer, and that word's eight bytes are those of
its window offset. -/
theorem messageBytesChangeOnlyByHostWrites : Obligations.MessageBytesChangeOnlyByHostWrites := by
  unfold Obligations.MessageBytesChangeOnlyByHostWrites
  intro s t j hp h hj
  cases stepIs_of_step h with
  | completion w due completes => exact absurd ((completeWord_keepsInputs completes).1.msgByte j) hj
  | reset n rest host op eq => exact .inl op
  | harmless n d rest rs host op eq => exact absurd (by rw [eq]; rfl) hj
  | dropped a v n rest host op aligned busy eq => exact absurd (by rw [eq]; rfl) hj
  | written a v rest host op aligned idle eq =>
    have he : t.epoch = s.epoch := by simp [eq]
    have hm : t.msgbuf = (({ s with todo := rest }).poke (regionAt s.params a.toNat) v).msgbuf := by simp [eq]
    rcases poke_msgbuf { s with todo := rest } (regionAt s.params a.toNat) v with hk | ⟨w, hr, hk⟩
    · exact absurd (State.msgByte_congr (hm.trans hk) he j) hj
    · have hw : t.msgByte j = (s.writeMsgWord w v).msgByte j :=
        State.msgByte_congr (s := s.writeMsgWord w v) (hm.trans hk) he j
      rw [hw, State.msgByte_writeMsgWord, ite_ne_right_iff] at hj
      obtain ⟨hlt, ho⟩ := msgWord_lt hp aligned hr hj.1
      refine .inr ⟨idle, hlt, v, ?_⟩
      rw [← ho, BitVec.ofNat_toNat, BitVec.setWidth_eq]
      exact op

/-- Settles O10: the two lists are those of the registers that are not volatile and of those that are. -/
theorem registerReads : Obligations.RegisterReads := by
  unfold Obligations.RegisterReads
  intro s
  have reads : ∀ rs : List Reg, (∀ r ∈ rs, s.busy = false ∨ r.volatile = false) →
      ∀ e ∈ registerValues s rs, serve (.read e.1) s = answered s (some e.2) false :=
    fun rs hrs => List.forall_mem_map.mpr fun r hr => serve_read_reg (hrs r hr)
  exact ⟨reads (allRegs.filter fun r => !r.volatile) fun r hr => .inr (by simpa using (List.mem_filter.mp hr).2),
    fun hb => reads (allRegs.filter Reg.volatile) fun _ _ => .inl hb⟩

/-- Settles O12: each write by its register. -/
theorem registerWrites : Obligations.RegisterWrites := by
  unfold Obligations.RegisterWrites
  intro s v hb
  have write := fun r => serve_write_reg hb r v
  refine ⟨write .arg0, write .arg1, write .msglen, write .seed0, write .seed1, write .status, ⟨_, write .cmd⟩, ?_⟩
  have ignored : ∀ rs : List Reg, (∀ r ∈ rs, s.writeReg r v = s) → ∀ a ∈ rs.map fun r => BitVec.ofNat 21 r.offset,
      serve (.write a 0xFF v) s = answered s none false :=
    fun rs hrs => List.forall_mem_map.mpr fun r hr => by rw [write r, hrs r hr]
  exact ignored [.id, .capMmax, .capKmax, .capMsgmax, .result, .m, .k, .setbits, .e0h0, .e0h1, .e1h0, .e1h1]
    (by simp [State.writeReg])

/-- Settles O11: the fields one by one, from the layout of the register. -/
theorem statusFieldPositions : Obligations.StatusFieldPositions := by
  unfold Obligations.StatusFieldPositions
  intro s
  obtain ⟨h0, h1, h2, h3, h4, h8⟩ := statusWord_getLsbD s
  have hcode : s.statusWord.extractLsb' 8 8 = s.status.errcode.code := by
    apply BitVec.eq_of_getLsbD_eq
    intro i hi
    rw [BitVec.getLsbD_extractLsb', h8 i hi, decide_eq_true hi, Bool.true_and]
  refine ⟨h0, h1, ?_, h3, h4, hcode, hcode ▸ code_le _, rfl, rfl, rfl, rfl, rfl, rfl⟩
  rw [h2, hcode, ne_eq, code_eq_zero_iff]
  exact decide_eq_true_iff

/-- Settles O55: the host's turn is the reset, whose state is that of R45 with the host's side kept. -/
theorem hardwareResetLoadsTheResetValues : Obligations.HardwareResetLoadsTheResetValues := by
  unfold Obligations.HardwareResetLoadsTheResetValues
  intro s rest ho hn
  obtain ⟨n, h⟩ := step_of_not_due hn
  rw [hostTurn_hardReset (s := { s with wait := n }) ho] at h
  refine ⟨_, h, rfl, statusWord_resetWith s.params (s.epoch + 1) s.draws, rfl, rfl, rfl, rfl, rfl, rfl, rfl, rfl, rfl,
    rfl, rfl, rfl, rfl, rfl, rfl, fun j => rfl, fun j => ?_⟩
  simp [State.bit, hardReset, State.resetWith]

end Sys2Proof.Machine

namespace Sys2Proof

/-- The decoder answers a command from its encoding (R76). -/
theorem decode_encode (i : Instr) : decode (encode i) = .ok i := by
  cases i with
  | hreset e | hwrite e => cases e <;> decide
  | _ => decide

end Sys2Proof

namespace Sys2Proof.Machine

/-! ### A well-formed access, by the location it reaches -/

section
variable {s : State} {a : BitVec 21}

/-- A read answers what its location holds, unless the block is busy and the location volatile (R56, R64). -/
theorem serve_read_peek (ha : a.toNat % 8 = 0) (h : s.busy = false ∨ (regionAt s.params a.toNat).volatile = false) :
    serve (.read a) s = answered s (some (s.peek (regionAt s.params a.toNat))) false := by
  have hv : ¬ (s.busy = true ∧ (regionAt s.params a.toNat).volatile = true) := not_and_or.mpr (by simpa using h)
  rw [serve_read, if_pos ha, if_neg hv]
  rfl

/-- A read of a volatile location of a busy block answers a fresh draw (R64). -/
theorem serve_read_draw (ha : a.toNat % 8 = 0) (hb : s.busy = true)
    (hr : (regionAt s.params a.toNat).volatile = true) :
    serve (.read a) s = answered { s with draws := s.draws + 1 } (some (Config.volatileRead s.draws)) false := by
  rw [serve_read, if_pos ha, if_pos ⟨hb, hr⟩]
  rfl

/-- A write to a busy block is dropped and sets OVR (R65). -/
theorem serve_write_dropped (ha : a.toNat % 8 = 0) (hb : s.busy = true) (v : Word) :
    serve (.write a 0xFF v) s = answered { s with status := { s.status with ovr := true } } none false := by
  rw [serve_write, if_pos ⟨ha, rfl⟩, if_pos hb]
  rfl

/-- A write to an idle block is carried out on its location (R52, R57, R58). -/
theorem serve_write_poke (ha : a.toNat % 8 = 0) (hb : s.busy = false) (v : Word) :
    serve (.write a 0xFF v) s = answered (s.poke (regionAt s.params a.toNat) v) none false := by
  rw [serve_write, if_pos ⟨ha, rfl⟩, if_neg (by simp [hb])]
  rfl

end

/-! ### Where the locations lie -/

section
variable {p : Params}

/-- The offset of a MSGBUF word is aligned, a request carries it whole, and it points to that word (R48, R57). -/
theorem msgWord_addr {w : Nat} (hp : p.Legal) (hw : w < p.msgmax / 8) :
    (BitVec.ofNat 21 (0x10000 + 8 * w)).toNat = 0x10000 + 8 * w ∧ (0x10000 + 8 * w) % 8 = 0 ∧
      regionAt p (0x10000 + 8 * w) = .msgWord w := by
  obtain ⟨-, -, -, -, -, -, -, hmax⟩ := hp
  have hr := regionAt_msgWord (p := p) (o := 0x10000 + 8 * w) (by simp only [msgbufOffset]; omega)
  refine ⟨?_, by omega, by rw [hr, msgbufOffset]; congr 1; omega⟩
  rw [BitVec.toNat_ofNat, Nat.mod_eq_of_lt (by omega)]

/-- The offset of a BITVEC word is aligned, a request carries it whole, and it points to that word (R48, R58). -/
theorem bitWord_addr {w : Nat} (hp : p.Legal) (hw : w < p.mmax / 64) :
    (BitVec.ofNat 21 (0x100000 + 8 * w)).toNat = 0x100000 + 8 * w ∧ (0x100000 + 8 * w) % 8 = 0 ∧
      regionAt p (0x100000 + 8 * w) = .bitWord w := by
  have hr := regionAt_bitWord (o := 0x100000 + 8 * w) hp (by simp only [bitvecOffset]; omega)
  obtain ⟨-, -, hmax, -⟩ := hp
  refine ⟨?_, by omega, by rw [hr, bitvecOffset]; congr 1; omega⟩
  rw [BitVec.toNat_ofNat, Nat.mod_eq_of_lt (by omega)]

/-- The reserved offsets: between the registers and the MSGBUF window, between the windows, and after them (R48). -/
theorem regionAt_reserved_ranges {o : Nat} (hp : p.Legal) (ho : 0x98 ≤ o ∧ o < 0x10000 ∨
    0x10000 + p.msgmax ≤ o ∧ o < 0x100000 ∨ 0x100000 + p.mmax / 8 ≤ o) : regionAt p o = .reserved := by
  obtain ⟨-, -, -, -, -, -, -, hmax⟩ := hp
  refine regionAt_reserved ?_ ?_ (by omega)
  · rw [msgbufOffset]; omega
  · rw [bitvecOffset]; omega

/-- The volatile locations: eight registers and the BITVEC window (R64). -/
theorem volatile_regionAt_iff {a : BitVec 21} (hp : p.Legal) : (regionAt p a.toNat).volatile = true ↔
    a ∈ [0x40#21, 0x48#21, 0x50#21, 0x58#21, 0x78#21, 0x80#21, 0x88#21, 0x90#21] ∨
      0x100000 ≤ a.toNat ∧ a.toNat < 0x100000 + p.mmax / 8 := by
  have hlist : [0x40#21, 0x48#21, 0x50#21, 0x58#21, 0x78#21, 0x80#21, 0x88#21, 0x90#21] =
      (allRegs.filter Reg.volatile).map fun r => BitVec.ofNat 21 r.offset := rfl
  rw [hlist]
  constructor
  · intro hv
    cases h : regionAt p a.toNat with
    | reg r =>
      have hr : r ∈ allRegs.filter Reg.volatile :=
        List.mem_filter.mpr ⟨by cases r <;> decide, by simpa [h, Region.volatile] using hv⟩
      exact .inl (List.mem_map.mpr ⟨r, hr, (eq_offset_of_regionAt h).symm⟩)
    | msgWord w => simp [h, Region.volatile] at hv
    | bitWord w => exact .inr (regionAt_eq_bitWord h)
    | reserved => simp [h, Region.volatile] at hv
  · rintro (ha | ha)
    · obtain ⟨r, hr, rfl⟩ := List.mem_map.mp ha
      rw [regAddr_toNat, regionAt_offset]
      exact (List.mem_filter.mp hr).2
    · rw [regionAt_bitWord hp ha]
      rfl

end

/-! ### The same write twice -/

/-- Clearing by ones twice clears what the first one cleared (R24). -/
theorem writeOneToClear_twice (st : Status) (v : Word) :
    (st.writeOneToClear v).writeOneToClear v = st.writeOneToClear v := by
  simp [Status.writeOneToClear]

/-- A write of any location but CMD, repeated, leaves the state the first one left (R56). -/
theorem poke_twice {s : State} {r : Region} (hr : r ≠ .reg .cmd) (hm : s.msgbuf.wf) (v : Word) :
    (s.poke r v).poke r v = s.poke r v := by
  cases r with
  | reg r =>
    cases r with
    | cmd => exact absurd rfl hr
    | status => simp [State.poke, State.writeReg, writeOneToClear_twice]
    | _ => rfl
  | msgWord w => simp [State.poke, State.writeMsgWord, Memory.writeWord_twice hm]
  | bitWord w => rfl
  | reserved => rfl

/-! ### The reserved bits and BUSY in STATUS -/

/-- Bits 5 to 7 of STATUS, and those from 16 on, are reserved and read 0 (R24, R52). -/
theorem statusWord_getLsbD_reserved (s : State) {i : Nat} (hi : 5 ≤ i ∧ i < 8 ∨ 16 ≤ i) :
    s.statusWord.getLsbD i = false := by
  change BitVec.getLsbD (w := 48 + 8 + 3 + 1 + 1 + 1 + 1 + 1) s.statusWord i = false
  simp only [State.statusWord, BitVec.getLsbD_append]
  repeat rw [if_neg (by omega)]
  rcases hi with hi | hi
  · rw [if_pos (by omega), BitVec.getLsbD_zero]
  · repeat rw [if_neg (by omega)]
    exact BitVec.getLsbD_zero

/-- So a field of reserved bits reads 0. -/
theorem statusWord_extractLsb'_reserved (s : State) {b n : Nat} (h : 5 ≤ b ∧ b + n ≤ 8 ∨ 16 ≤ b) :
    s.statusWord.extractLsb' b n = 0#n := by
  apply BitVec.eq_of_getLsbD_eq
  intro i hi
  rw [BitVec.getLsbD_extractLsb', statusWord_getLsbD_reserved s (by omega), Bool.and_false, BitVec.getLsbD_zero]

/-- Setting the lowest bit of a word. -/
theorem append_one_eq_or_one (x : BitVec 63) : (x ++ 1#1 : Word) = (x ++ 0#1) ||| 1 := by
  have hone : (1 : Word) = 0#63 ++ 1#1 := by decide
  rw [hone, BitVec.or_append, BitVec.or_zero, BitVec.zero_or]

/-- With a word pending STATUS reads as it does without, but for BUSY = 1 (R24, R42). -/
theorem statusWord_of_pending {s : State} {w : Word} (hp : s.pending = some w) :
    s.statusWord = ({ s with pending := none } : State).statusWord ||| 1 := by
  have hb : s.busy = true := by simp [State.busy, hp]
  rw [State.statusWord, hb]
  exact append_one_eq_or_one _

/-! ### The windows in bytes and bits -/

/-- The sum of R57 that a MSGBUF word is. -/
theorem msgWord_toNat (s : State) (w : Nat) :
    (s.msgWord w).toNat = ∑ t ∈ Finset.range 8, (s.msgByte (8 * w + t)).toNat * 2 ^ (8 * t) := by
  rw [State.msgWord, (leWord_toNat _ (by simp)).1, List.length_map, List.length_range]
  exact Finset.sum_congr rfl fun t ht => by simp [List.getD, Finset.mem_range.mp ht]

/-- Byte t of MSGBUF word w is message byte 8w + t (R53, R57). -/
theorem byteOf_msgWord (s : State) (w : Nat) {t : Nat} (ht : t < 8) :
    byteOf (s.msgWord w) t = s.msgByte (8 * w + t) := by
  rw [State.msgWord, byteOf_leWord _ _ ht]
  simp [List.getD, ht]

/-- A MSGBUF word inside the message is LE64 of the message at that place (R54, R57). -/
theorem msgWord_eq_le64 {s : State} {w : Nat} (h : 8 * w + 8 ≤ s.msglen.toNat) :
    s.msgWord w = le64 s.message (8 * w) := by
  have hbytes : (List.range 8).map (fun t => s.msgByte (8 * w + t)) = (s.message.drop (8 * w)).take 8 :=
    List.ext_getElem (by simp; omega) fun t _ _ => by simp [State.message]
  rw [State.msgWord, le64, hbytes]

/-- While M = 0 every BITVEC word reads 0 (R58). -/
theorem bitWord_eq_zero {s : State} (hm : s.m = 0) (w : Nat) : s.bitWord w = 0 := by
  apply BitVec.eq_of_getLsbD_eq
  intro t ht
  simp [State.bitWord_getLsbD s w t ht, hm]

section
variable (s : State)

/-- The bytes at an aligned offset are those of the word there (R53). -/
theorem peekByte_add {o t : Nat} (ho : o % 8 = 0) (ht : t < 8) :
    s.peekByte (o + t) = byteOf (s.peek (regionAt s.params o)) t := by
  rw [State.peekByte, show (o + t) / 8 * 8 = o by omega, show (o + t) % 8 = t by omega]

variable {s} (hp : s.params.Legal)
include hp

/-- The bytes of the MSGBUF window are the message bytes (R53, R57). -/
theorem peekByte_msgbuf {j : Nat} (hj : j < s.params.msgmax) : s.peekByte (0x10000 + j) = s.msgByte j := by
  have hw : j / 8 < s.params.msgmax / 8 := by
    obtain ⟨-, -, -, -, -, hmod, -⟩ := hp
    omega
  obtain ⟨-, haligned, hr⟩ := msgWord_addr hp hw
  have ht : j % 8 < 8 := Nat.mod_lt _ (by omega)
  rw [show 0x10000 + j = 0x10000 + 8 * (j / 8) + j % 8 by omega, peekByte_add s haligned ht, hr, State.peek,
    byteOf_msgWord s _ ht, Nat.div_add_mod]

/-- Bit u of byte j of the BITVEC window is cell 8j + u below M (R53, R58). -/
theorem peekByte_bitvec {j u : Nat} (hj : j < s.params.mmax / 8) (hu : u < 8) :
    (s.peekByte (0x100000 + j)).getLsbD u = (decide (8 * j + u < s.m.toNat) && s.bit (8 * j + u)) := by
  have hw : j / 8 < s.params.mmax / 64 := by
    obtain ⟨hmod, -⟩ := hp
    omega
  obtain ⟨-, haligned, hr⟩ := bitWord_addr hp hw
  have ht : j % 8 < 8 := Nat.mod_lt _ (by omega)
  rw [show 0x100000 + j = 0x100000 + 8 * (j / 8) + j % 8 by omega, peekByte_add s haligned ht, hr, State.peek,
    byteOf_getLsbD _ _ _ hu, State.bitWord_getLsbD s _ _ (by omega),
    show 64 * (j / 8) + (8 * (j % 8) + u) = 8 * j + u by omega, Bool.and_comm]

end

/-! ### The due command -/

/-- When a word is pending and its latency is over, a step completes it (R16, R63). -/
theorem step_of_due {s : State} {w : Word} (h : s.pending = some w) (hw : s.wait = 0) : step s = completeWord w s := by
  simp [step, h, hw]

/-- The completion of a word that decodes is that of its command (R63). -/
theorem completeWord_of_decode {w : Word} {i : Instr} (h : decode w = .ok i) (s : State) :
    completeWord w s = exec i s := by
  simp [completeWord, h]

/-! ### The obligations on the host bus -/

/-- Settles O9: a reserved offset holds 0 and a write leaves it alone; STATUS has its reserved bits 0 in every state. -/
theorem reservedReadsZeroIgnoresWrites : Obligations.ReservedReadsZeroIgnoresWrites := by
  unfold Obligations.ReservedReadsZeroIgnoresWrites
  refine ⟨fun s a v hp ha ho => ?_, fun s v => ?_⟩
  · have hr := regionAt_reserved_ranges hp ho
    have hread := serve_read_peek ha (.inr (by rw [hr]; rfl))
    refine ⟨by rw [hread, hr]; rfl, fun hb => ?_, fun hb => serve_write_dropped ha hb v⟩
    rw [serve_write_poke ha hb v, hr]
    rfl
  · have reserved : ∀ t : State, t.statusWord.extractLsb' 5 3 = 0#3 ∧ t.statusWord.extractLsb' 16 48 = 0#48 :=
      fun t => ⟨statusWord_extractLsb'_reserved t (by omega),
        statusWord_extractLsb'_reserved t (by omega)⟩
    exact ⟨(reserved _).1, (reserved _).2, reserved s⟩

/-- Settles O13: a read answers and at most takes a draw; a repeated write meets what the first one left. -/
theorem readsAreHarmlessAndWritesIdempotent : Obligations.ReadsAreHarmlessAndWritesIdempotent := by
  unfold Obligations.ReadsAreHarmlessAndWritesIdempotent
  refine ⟨fun s a => ?_, fun s a v hm ha hb => ?_⟩
  · rw [serve_read]
    split
    · split
      · exact ⟨_, _, _, rfl⟩
      · exact ⟨_, _, s.draws, rfl⟩
    · exact ⟨_, _, s.draws, rfl⟩
  · have hr : regionAt s.params a.toNat ≠ .reg .cmd := fun h => ha (eq_offset_of_regionAt h)
    have hb' : (s.poke (regionAt s.params a.toNat) v).busy = false := by
      simpa [State.busy, hr] using hb
    simp only [memWrite, hb, hb', Bool.false_eq_true, if_false, poke_params, poke_twice hr hm]

/-- Settles O14: the offsets listed are those of the volatile locations; CMD and STATUS are not among them. -/
theorem volatileReadsAreFreshDraws : Obligations.VolatileReadsAreFreshDraws := by
  unfold Obligations.VolatileReadsAreFreshDraws
  refine ⟨fun s a hp hb ha => ⟨fun hv => ?_, fun hv => ?_⟩, fun s w hi hw => ⟨?_, s.statusWord, ?_, ?_, ?_⟩⟩
  · exact serve_read_draw ha hb ((volatile_regionAt_iff hp).mpr hv)
  · rw [← not_or, ← volatile_regionAt_iff hp, Bool.not_eq_true] at hv
    exact serve_read_peek ha (.inr hv)
  · rw [← hi.pendingCmd w hw]
    exact serve_read_reg (r := .cmd) (.inr rfl)
  · exact serve_read_reg (r := .status) (.inr rfl)
  · rw [(statusWord_getLsbD s).1, State.busy, hw]
    rfl
  · exact statusWord_of_pending hw

/-- Settles O15: a command's effect is the same whatever the draw counter is, and a command writes nothing outside the
block's data but BUSY. -/
theorem completionsIgnoreTheDraws : Obligations.CompletionsIgnoreTheDraws := by
  unfold Obligations.CompletionsIgnoreTheDraws
  intro i s t n h
  obtain ⟨hk, hidle⟩ := commandsNeverWriteTheirInputs i s t h
  have ht : { t.rehost { s with draws := n } with pending := none } = { t with draws := n } := by
    simp [State.rehost, ← hk.cmd, ← hk.wait, ← hk.todo, ← hk.responses, pending_eq_none_of_idle hidle]
  exact ht ▸ exec_rehost { s with draws := n } h

/-- Settles O16: the offset points to MSGBUF word w, which a read sums up and a write stores byte by byte. -/
theorem msgbufWindow : Obligations.MsgbufWindow := by
  unfold Obligations.MsgbufWindow
  intro s w v hp hw
  obtain ⟨ha, haligned, hr⟩ := msgWord_addr hp hw
  refine ⟨⟨s.msgWord w, ?_, msgWord_toNat s w⟩, fun hb => ⟨s.msgbuf.writeWord (8 * w) v, ?_, ?_⟩⟩
  · rw [serve_read_peek (by rwa [ha]) (.inr (by rw [ha, hr]; rfl)), ha, hr]
    rfl
  · rw [serve_write_poke (by rwa [ha]) hb v, ha, hr]
    rfl
  · exact State.msgByte_writeMsgWord s w v

/-- Settles O17: the second word of block b is the word at 8(2b + 1) = 16b + 8. -/
theorem msgbufWordIsLe64OfTheMessage : Obligations.MsgbufWordIsLe64OfTheMessage := by
  unfold Obligations.MsgbufWordIsLe64OfTheMessage
  intro s w b
  refine ⟨msgWord_eq_le64, fun h => ⟨?_, ?_⟩⟩
  · rw [msgWord_eq_le64 (by omega), show 8 * (2 * b) = 16 * b by omega]
  · rw [msgWord_eq_le64 (by omega), show 8 * (2 * b + 1) = 16 * b + 8 by omega]

/-- Settles O18: the offset points to BITVEC word w, which a write leaves alone. -/
theorem bitvecWindow : Obligations.BitvecWindow := by
  unfold Obligations.BitvecWindow
  intro s w v hp hw hb
  obtain ⟨ha, haligned, hr⟩ := bitWord_addr hp hw
  refine ⟨⟨s.bitWord w, ?_, fun t ht => ?_, fun hm => bitWord_eq_zero hm w⟩, ?_⟩
  · rw [serve_read_peek (by rwa [ha]) (.inl hb), ha, hr]
    rfl
  · rw [State.bitWord_getLsbD s w t ht, Bool.and_comm]
  · rw [serve_write_poke (by rwa [ha]) hb v, ha, hr]
    rfl

/-- Settles O19: the byte at an offset by the word that holds it, in each window; after a write, by the message byte
written. -/
theorem busIsLittleEndian : Obligations.BusIsLittleEndian := by
  unfold Obligations.BusIsLittleEndian
  intro s hp
  refine ⟨fun hb a ha => ⟨_, serve_read_peek ha (.inl hb), fun t ht => peekByte_add s ha ht⟩,
    fun j => peekByte_msgbuf hp, fun j u => peekByte_bitvec hp, fun hb w t v hw ht => ?_⟩
  obtain ⟨ha, haligned, hr⟩ := msgWord_addr hp hw
  have hserve : serve (.write (BitVec.ofNat 21 (0x10000 + 8 * w)) 0xFF v) s =
      answered (s.writeMsgWord w v) none false := by
    rw [serve_write_poke (by rwa [ha]) hb v, ha, hr]
    rfl
  have hbyte : (s.writeMsgWord w v).msgByte (8 * w + t) = v.extractLsb' (8 * t) 8 := by
    rw [State.msgByte_writeMsgWord, if_pos (by omega), Nat.add_sub_cancel_left, byteOf]
  rw [hserve, Nat.add_assoc, ← hbyte]
  exact peekByte_msgbuf (s := answered (s.writeMsgWord w v) none false) hp
    (show 8 * w + t < s.params.msgmax by omega)

/-- Settles O4: a due word completes as the command it decodes to, and the encoding of a command decodes to it. -/
theorem stepCompletesTheDecodedCommand : Obligations.StepCompletesTheDecodedCommand := by
  unfold Obligations.StepCompletesTheDecodedCommand
  refine ⟨fun s w i hp hw hd _ => ?_, fun s i => ?_, fun s => step_of_idle, fun s w n => step_of_waiting⟩
  · rw [step_of_due hp hw, completeWord_of_decode hd]
  · have hword : BitVec.ofNat 64 ((encode i).toNat % 2 ^ 64) = encode i := by
      rw [Nat.mod_eq_of_lt (encode i).isLt, BitVec.ofNat_toNat, BitVec.setWidth_eq]
    rw [State.withFetchWord, hword, step_of_due rfl rfl, completeWord_of_decode (decode_encode i)]

/-- Settles O7: neither case of a malformed request reaches a location. -/
theorem malformedRequestHasNoEffect : Obligations.MalformedRequestHasNoEffect := by
  unfold Obligations.MalformedRequestHasNoEffect
  refine fun s a strb v => ⟨fun ha => ?_, fun h => ?_⟩
  · rw [serve_read, if_neg ha]
    rfl
  · rw [serve_write, if_neg (show ¬ (a.toNat % 8 = 0 ∧ strb = 0xFF) from not_and_or.mpr h)]
    rfl

/-- Settles O8: what a dropped write does does not depend on its offset. -/
theorem writeWhileBusyIsDropped : Obligations.WriteWhileBusyIsDropped := by
  unfold Obligations.WriteWhileBusyIsDropped
  exact fun s a v hb ha => serve_write_dropped ha hb v

end Sys2Proof.Machine

namespace Sys2Proof

/-! ### The fields of a command word (R70, R74) -/

/-- The decoder accepts a word as a command exactly when it is that command's encoding (R73, R76). -/
theorem decode_eq_ok_iff {w : Word} {i : Instr} : decode w = .ok i ↔ encode i = w :=
  ⟨encode_of_decode, fun h => h ▸ decode_encode i⟩

/-- The bits of a command word: OP in bits 0 to 7, E in bit 8, and 0 above (R70). -/
theorem encode_getLsbD (i : Instr) (b : Nat) : (encode i).getLsbD b =
    if b < 8 then (opcode i).getLsbD b else decide (b = 8) && engineBit i := by
  change BitVec.getLsbD (w := 55 + 1 + 8) (encode i) b = _
  simp only [encode, BitVec.getLsbD_append]
  by_cases hop : b < 8
  · rw [if_pos hop, if_pos hop]
  · rw [if_neg hop, if_neg hop]
    by_cases he : b = 8
    · simp [he]
    · simp [he, show ¬ b - 8 < 1 by omega]

/-- A word is the encoding of the command whose opcode and engine bit it carries, and of no other, if its reserved bits
are 0 (R70). -/
theorem encode_eq_iff {w : Word} {i : Instr} : encode i = w ↔
    opcode i = w.extractLsb' 0 8 ∧ engineBit i = w.getLsbD 8 ∧ ∀ b, 9 ≤ b → b < 64 → w.getLsbD b = false := by
  constructor
  · rintro rfl
    refine ⟨BitVec.eq_of_getLsbD_eq fun b hb => ?_, ?_, fun b hb _ => ?_⟩
    · simp [encode_getLsbD, hb]
    · rw [encode_getLsbD]
      simp
    · simp [encode_getLsbD, show ¬ b < 8 by omega, show b ≠ 8 by omega]
  · rintro ⟨hop, he, hrsv⟩
    refine BitVec.eq_of_getLsbD_eq fun b hb => ?_
    rw [encode_getLsbD, hop, he]
    rcases Nat.lt_trichotomy b 8 with h | rfl | h
    · simp [h]
    · simp
    · simp [show ¬ b < 8 by omega, show b ≠ 8 by omega, hrsv b h hb]

/-- Each assigned opcode has its command, with either engine bit if it is HRESET or HWRITE and with E = 0 otherwise
(R72, R74). -/
theorem exists_command : ∀ op ∈ assignedOps, ∀ e : Bool, (e = true → op = 0x10 ∨ op = 0x11) →
    ∃ r ∈ cmdTable, opcode (r.build (engineOfBit e)) = op ∧ engineBit (r.build (engineOfBit e)) = e := by
  decide

/-- The opcode of a command is assigned, and only an engine command sets E (R70, R74). -/
theorem opcode_mem_assignedOps (i : Instr) :
    opcode i ∈ assignedOps ∧ (engineBit i = true → opcode i = 0x10 ∨ opcode i = 0x11) := by
  cases i <;> simp [opcode, engineBit, assignedOps]

/-- A word is legal exactly on R74's terms: an assigned OP, the reserved bits 0, and E = 1 only with an engine OP. -/
theorem exists_decode_eq_ok_iff {w : Word} : (∃ i, decode w = .ok i) ↔
    w.extractLsb' 0 8 ∈ assignedOps ∧ (∀ b, 9 ≤ b → b < 64 → w.getLsbD b = false) ∧
      (w.getLsbD 8 = true → w.extractLsb' 0 8 = 0x10 ∨ w.extractLsb' 0 8 = 0x11) := by
  simp only [decode_eq_ok_iff, encode_eq_iff]
  constructor
  · rintro ⟨i, hop, he, hrsv⟩
    obtain ⟨hmem, hengine⟩ := opcode_mem_assignedOps i
    exact hop ▸ he ▸ ⟨hmem, hrsv, hengine⟩
  · rintro ⟨hmem, hrsv, hengine⟩
    obtain ⟨r, -, hop, he⟩ := exists_command _ hmem _ hengine
    exact ⟨_, hop, he, hrsv⟩

/-- A word is rejected exactly when it is accepted as no command (R76). -/
theorem exists_decode_eq_error_iff {w : Word} : (∃ r, decode w = .error r) ↔ ¬ ∃ i, decode w = .ok i := by
  cases decode w <;> simp

/-! ### The obligations on the encoding -/

/-- Settles O1: the decoder is the encoder's inverse, in both directions. -/
theorem decodeAcceptsExactlyTheEncodings : Obligations.DecodeAcceptsExactlyTheEncodings := by
  unfold Obligations.DecodeAcceptsExactlyTheEncodings
  exact fun w i => decode_eq_ok_iff

/-- Settles O2: the three grounds are the failures of the three terms on which a word is legal. -/
theorem illegalWordsAreThoseOfTheList : Obligations.IllegalWordsAreThoseOfTheList := by
  unfold Obligations.IllegalWordsAreThoseOfTheList
  intro w
  rw [exists_decode_eq_error_iff, exists_decode_eq_ok_iff, not_and_or, not_and_or]
  simp [assignedOps]

/-- Settles O3: the legal words are encodings, and the other three are illegal on the ground named. -/
theorem writtenOutWordsDecode : Obligations.WrittenOutWordsDecode := by
  unfold Obligations.WrittenOutWordsDecode
  exact ⟨decode_encode .nop, decode_encode .configure, decode_encode (.hreset .e1), decode_encode (.hwrite .e0),
    decode_encode .index, decode_encode .popcnt, decode_encode .includes, by decide, by decide, by decide⟩

end Sys2Proof

namespace Sys2Proof.Machine

/-! ### Every step answers a next state (R127) -/

/-- A command completes, whatever state it starts in. -/
theorem exists_exec_eq_next (i : Instr) (s : State) : ∃ t, exec i s = .next t := by
  rw [exec_eq_conclude]
  cases effectOf i s <;> exact ⟨_, rfl⟩

/-- A word completes, legal or not. -/
theorem exists_completeWord_eq_next (w : Word) (s : State) : ∃ t, completeWord w s = .next t := by
  cases h : decode w with
  | ok i => simpa only [completeWord_of_decode h] using exists_exec_eq_next i s
  | error r => exact ⟨s.raise .illegalCmd, by simp only [completeWord, h]; rfl⟩

/-- The machine never stops. -/
theorem exists_step_eq_next (s : State) : ∃ t, step s = .next t := by
  cases hp : s.pending with
  | none => exact ⟨_, step_of_idle hp⟩
  | some w =>
    cases hw : s.wait with
    | zero => simpa only [step_of_due hp hw] using exists_completeWord_eq_next w s
    | succ n => exact ⟨_, step_of_waiting hp hw⟩

/-! ### Every host program ends (R79, R150, R153) -/

/-- The steps until the pending word is completed, the completion included. -/
def State.stepsToCompletion (s : State) : Nat := if s.busy then s.wait + 1 else 0

/-- A turn of the host takes one operation off its list, but for a turn with nothing to do and a poll of a busy block,
which leave the block as it is. -/
theorem hostTurn_progress (s : State) : (hostTurn s).todo.length < s.todo.length ∨
    ((s.todo = [] ∨ s.busy = true) ∧ ∃ d rs, hostTurn s = { s with draws := d, responses := rs }) := by
  rcases hostTurn_cases s with ⟨ho, ht⟩ | ⟨rest, ho, ht⟩ | ⟨op, rest, d, rs, ho, -, -, htodo, ht⟩ |
    ⟨a, v, rest, ho, -, -, ht⟩ | ⟨a, v, rest, ho, -, -, ht⟩
  · exact .inr ⟨.inl ho, s.draws, s.responses, ht⟩
  · exact .inl (by rw [ht, ho]; exact Nat.lt_succ_self _)
  · split at htodo
    · next hpoll => exact .inr ⟨.inr hpoll.2, d, rs, by rw [ht, htodo]⟩
    · exact .inl (by rw [htodo, ho]; exact Nat.lt_succ_self _)
  · exact .inl (by rw [ht, ho]; exact Nat.lt_succ_self _)
  · exact .inl (by rw [ht, ho, poke_eq]; exact Nat.lt_succ_self _)

/-- Until the host program has ended, each step shortens the host's list, or keeps it and brings a completion nearer. -/
theorem step_progress {s t : State} (hd : ¬ HostDone s) (h : step s = .next t) :
    t.todo.length < s.todo.length ∨ t.todo = s.todo ∧ t.stepsToCompletion < s.stepsToCompletion := by
  cases hp : s.pending with
  | none =>
    obtain rfl : hostTurn s = t := by simpa [step_of_idle hp] using h
    refine (hostTurn_progress s).imp_right fun ⟨hkeep, _⟩ => absurd ?_ hd
    exact ⟨hkeep.resolve_right (by simp [State.busy, hp]), hp⟩
  | some w =>
    have hb : s.busy = true := by simp [State.busy, hp]
    cases hw : s.wait with
    | zero =>
      obtain ⟨hkeeps, hidle⟩ := completeWord_keepsInputs (step_of_due hp hw ▸ h)
      exact .inr ⟨hkeeps.todo, by simp [State.stepsToCompletion, hidle, hb]⟩
    | succ n =>
      obtain rfl : hostTurn { s with wait := n } = t := by simpa [step_of_waiting hp hw] using h
      refine (hostTurn_progress { s with wait := n }).imp_right fun ⟨_, d, rs, ht⟩ => ?_
      rw [ht]
      exact ⟨rfl, by simp [State.stepsToCompletion, State.busy, hp, hw]⟩

/-- So from every state the host program ends. -/
theorem exists_runsTo_hostDone (s : State) : ∃ n t, RunsTo n s t ∧ HostDone t := by
  by_cases hd : HostDone s
  · exact ⟨0, s, (runsTo_zero s s).mpr rfl, hd⟩
  · obtain ⟨u, hu⟩ := exists_step_eq_next s
    have hprogress := step_progress hd hu
    obtain ⟨n, t, hrun, hend⟩ := exists_runsTo_hostDone u
    exact ⟨n + 1, t, (runsTo_succ n s t).mpr ⟨u, hu, hrun⟩, hend⟩
termination_by (s.todo.length, s.stepsToCompletion)
decreasing_by
  rcases hprogress with h | ⟨heq, h⟩
  · exact Prod.Lex.left _ _ h
  · exact heq ▸ Prod.Lex.right _ h

/-- Settles O57: each step makes progress on the pair of the host's list and the completion due. -/
theorem everyHostProgramEnds : Obligations.EveryHostProgramEnds := by
  unfold Obligations.EveryHostProgramEnds
  exact exists_runsTo_hostDone

/-! ### The statements of the host assembly, operation by operation (R77 to R80) -/

/-- A run of one step. -/
theorem runsTo_one {s t : State} (h : step s = .next t) : RunsTo 1 s t :=
  (runsTo_succ 0 s t).mpr ⟨t, h, (runsTo_zero t t).mpr rfl⟩

section
variable {s : State} {rest : List HostOp}

/-- A bus request is served once, with the rest of the program left to do. -/
theorem hostTurn_request {q : BusRequest} (h : s.todo = .request q :: rest) :
    hostTurn s = serve q { s with todo := rest } := by
  simp [hostTurn, h]

/-- `wr` of a register on an idle block (R77). -/
theorem step_writeOp_reg {r : Reg} {v : Word} (hp : s.pending = none) (h : s.todo = writeOp (.reg r) v :: rest) :
    step s = .next (answered (({ s with todo := rest } : State).writeReg r v) none false) := by
  rw [step_of_idle hp, hostTurn_request h]
  exact congrArg _ (serve_write_reg (by simp [State.busy, hp]) r v)

/-- `wr` of a MSGBUF word on an idle block (R57, R77). -/
theorem step_writeOp_msgbuf {w : Nat} {v : Word} (hl : s.params.Legal) (hw : w < s.params.msgmax / 8)
    (hp : s.pending = none) (h : s.todo = writeOp (.msgbuf w) v :: rest) :
    step s = .next (answered (({ s with todo := rest } : State).writeMsgWord w v) none false) := by
  obtain ⟨ha, haligned, hr⟩ := msgWord_addr hl hw
  rw [step_of_idle hp, hostTurn_request h, Loc.offset, msgbufOffset,
    serve_write_poke (by rwa [ha]) (by simp [State.busy, hp]), ha, hr]
  rfl

/-- `poll` reads STATUS, and is done when the block is idle (R79). -/
theorem hostTurn_poll (h : s.todo = .poll :: rest) :
    hostTurn s = answered (if s.busy then s else { s with todo := rest }) (some s.statusWord) false := by
  simp only [hostTurn, h]
  rw [statusAddr, serve_read_reg (.inr rfl)]
  cases s.busy <;> rfl

end

/-! ### `msg` (R80) -/

/-- Byte t of LE64 is the byte at that place, and 0 past the end (R12, R80). -/
theorem byteOf_le64 (d : List Byte) (p : Nat) {t : Nat} (ht : t < 8) : byteOf (le64 d p) t = d.getD (p + t) 0 := by
  rw [le64, byteOf_leWord _ _ ht]
  simp [List.getD, ht]

/-- Writes of the first k MSGBUF words store their bytes and change nothing else of the block. -/
theorem runsTo_writeMsgWords {s : State} (hl : s.params.Legal) (hp : s.pending = none) (v : Nat → Word) (k : Nat)
    (hk : k ≤ s.params.msgmax / 8) (rest : List HostOp)
    (h : s.todo = (List.range k).map (fun w => writeOp (.msgbuf w) (v w)) ++ rest) :
    ∃ mem rs, RunsTo k s { s with msgbuf := mem, todo := rest, responses := rs } ∧
      ∀ j, ({ s with msgbuf := mem } : State).msgByte j =
        if j < 8 * k then byteOf (v (j / 8)) (j % 8) else s.msgByte j := by
  induction k generalizing rest with
  | zero =>
    obtain rfl : s.todo = rest := h
    exact ⟨s.msgbuf, s.responses, (runsTo_zero s s).mpr rfl, fun j => by simp⟩
  | succ k ih =>
    rw [List.range_succ, List.map_append, List.append_assoc] at h
    obtain ⟨mem, rs, hrun, hbytes⟩ := ih (by omega) _ h
    have hstep := step_writeOp_msgbuf
      (s := { s with msgbuf := mem, todo := writeOp (.msgbuf k) (v k) :: rest, responses := rs }) hl hk hp rfl
    refine ⟨_, _, runsTo_add hrun (runsTo_one hstep), fun j => ?_⟩
    refine (State.msgByte_writeMsgWord { s with msgbuf := mem } k (v k) j).trans ?_
    rw [hbytes]
    by_cases hj : 8 * k ≤ j ∧ j < 8 * k + 8
    · rw [if_pos hj, if_pos (by omega), show j / 8 = k by omega, show j - 8 * k = j % 8 by omega]
    · rw [if_neg hj]
      by_cases hlt : j < 8 * k
      · rw [if_pos hlt, if_pos (by omega)]
      · rw [if_neg hlt, if_neg (by omega)]

/-- The bytes 0 to MSGLEN - 1 are the message (R59). -/
theorem message_eq_of_msgByte {s : State} {d : List Byte} (hlen : s.msglen.toNat = d.length)
    (h : ∀ j, j < d.length → s.msgByte j = d.getD j 0) : s.message = d := by
  refine List.ext_getElem (by simp [State.message, hlen]) fun j _ hj => ?_
  simp [State.message, h j hj, List.getD, hj]

/-- Settles O58: the words of the buffer one by one, then MSGLEN. -/
theorem msgStatementLoadsTheMessage : Obligations.MsgStatementLoadsTheMessage := by
  unfold Obligations.MsgStatementLoadsTheMessage
  intro s d rest hi hp hwf ho
  have hfits : d.length ≤ s.params.msgmax := by simpa [HostStmt.wellFormed] using hwf
  obtain ⟨-, -, -, -, -, hmod, -, hmax⟩ := hi.legal
  rw [HostStmt.expand, msgOps, List.append_assoc] at ho
  obtain ⟨mem, rs, hrun, hbytes⟩ := runsTo_writeMsgWords hi.legal hp (fun w => le64 d (8 * w)) ((d.length + 7) / 8)
    (by omega) _ ho
  have hstep := step_writeOp_reg (s := { s with
    msgbuf := mem, todo := writeOp (.reg .msglen) (BitVec.ofNat 64 d.length) :: rest, responses := rs }) hp rfl
  have hload : ∀ j, j < 8 * ((d.length + 7) / 8) → ({ s with msgbuf := mem } : State).msgByte j = d.getD j 0 :=
    fun j hj => by
      rw [hbytes, if_pos hj, byteOf_le64 d _ (by omega), show 8 * (j / 8) + j % 8 = j by omega]
  refine ⟨_, by simpa [HostStmt.expand, msgOps] using runsTo_add hrun (runsTo_one hstep), ?_, fun j hlo hhi => ?_,
    fun j hj => ?_, rfl⟩
  · exact message_eq_of_msgByte (Nat.mod_eq_of_lt (by omega)) fun j hj => hload j (by omega)
  · exact (hload j hhi).trans (by simp [List.getD, hlo])
  · exact (hbytes j).trans (if_neg (by omega))

/-! ### A command statement (R78, R79) -/

/-- While a command runs the host polls, and the latency runs out with no other change than the responses (R79,
R150). -/
theorem runsTo_polling {s : State} {w : Word} {rest : List HostOp} (hp : s.pending = some w)
    (h : s.todo = .poll :: rest) : ∃ rs, RunsTo s.wait s { s with wait := 0, responses := rs } := by
  induction hw : s.wait generalizing s with
  | zero => exact ⟨s.responses, (runsTo_zero ..).mpr (by rw [← hw])⟩
  | succ n ih =>
    have hstep : step s = .next (answered { s with wait := n } (some s.statusWord) false) := by
      rw [step_of_waiting hp hw, hostTurn_poll (s := { s with wait := n }) h, if_pos (by simp [State.busy, hp])]
      rfl
    obtain ⟨rs, hrun⟩ := ih (s := answered { s with wait := n } (some s.statusWord) false) hp h rfl
    exact ⟨rs, (runsTo_succ ..).mpr ⟨_, hstep, hrun⟩⟩

/-- What a command does to the block does not depend on the latency, the draws and the host's side, which it keeps
(R64, R150). -/
theorem exec_outside {i : Instr} {s u : State} (h : exec i s = .next u) (n d : Nat) (ops : List HostOp)
    (rs : List BusResponse) : exec i { s with wait := n, draws := d, todo := ops, responses := rs } =
      .next { u with wait := n, draws := d, todo := ops, responses := rs } := by
  obtain ⟨hkeeps, hidle⟩ := commandsNeverWriteTheirInputs i s u h
  refine (exec_rehost { s with wait := n, draws := d, todo := ops, responses := rs } h).trans (congrArg _ ?_)
  simp [State.rehost, hkeeps.cmd, pending_eq_none_of_idle hidle]

/-- Settles O59: the acceptance, the polls of the busy block, the completion, and the poll that sees it. -/
theorem commandStatementHasTheCommandsEffect : Obligations.CommandStatementHasTheCommandsEffect := by
  unfold Obligations.CommandStatementHasTheCommandsEffect
  intro s i rest hp ho
  have haccept := step_writeOp_reg hp (rest := .poll :: rest) ho
  obtain ⟨rs, hpolls⟩ := runsTo_polling (rest := rest)
    (s := answered (({ s with todo := .poll :: rest } : State).accept (encode i)) none false) rfl rfl
  obtain ⟨u, hu⟩ := exists_exec_eq_next i { s with cmd := encode i, pending := some (encode i) }
  have hidle : u.busy = false := (commandsNeverWriteTheirInputs i _ u hu).2
  have hcomplete : step { s with
      cmd := encode i, pending := some (encode i), wait := 0, draws := s.draws + 1, todo := .poll :: rest,
      responses := rs } = .next { u with wait := 0, draws := s.draws + 1, todo := .poll :: rest, responses := rs } := by
    rw [step_of_due rfl rfl, completeWord_of_decode (decode_encode i)]
    exact exec_outside hu 0 (s.draws + 1) (.poll :: rest) rs
  have hend := step_of_idle
    (s := { u with wait := 0, draws := s.draws + 1, todo := .poll :: rest, responses := rs })
    (pending_eq_none_of_idle hidle)
  rw [hostTurn_poll rfl, if_neg (by simpa [State.busy] using hidle)] at hend
  refine ⟨_, _, u, runsTo_add (runsTo_one haccept) (runsTo_add hpolls
    (runsTo_add (runsTo_one hcomplete) (runsTo_one hend))), hu, rfl, ?_⟩
  exact List.getLast?_concat

end Sys2Proof.Machine

namespace Sys2Proof.Machine

/-! ### `LE64` and the block loop (R12, R84, R89) -/

/-- LE64 inside the first of two lists reads the first alone. -/
theorem le64_append_left {x : List Byte} {p : Nat} (y : List Byte) (h : p + 8 ≤ x.length) :
    le64 (x ++ y) p = le64 x p := by
  rw [le64, le64, List.drop_append_of_le_length (by omega),
    List.take_append_of_le_length (by rw [List.length_drop]; omega)]

/-- LE64 past the first of two lists reads the second. -/
theorem le64_append_right (x y : List Byte) (p : Nat) : le64 (x ++ y) (x.length + p) = le64 y p := by
  rw [le64, le64, List.drop_length_add_append]

/-- The block loop takes its first block first: what is left is the loop over the bytes behind it (R89). -/
theorem blockLoop_append_block (h : EngineWords) {x : List Byte} (y : List Byte) (hx : x.length = 16) :
    blockLoop h (x ++ y) = blockLoop (blockStep h (le64 x 0) (le64 x 8)) y := by
  have hcount : (x ++ y).length / 16 = y.length / 16 + 1 := by rw [List.length_append, hx]; omega
  have hrest : ∀ p, le64 (x ++ y) (16 + p) = le64 y p := hx ▸ le64_append_right x y
  rw [blockLoop, hcount, List.range_succ_eq_map, List.foldl_cons, List.foldl_map,
    le64_append_left y (by omega), le64_append_left y (by omega)]
  refine congrArg (fun step => List.foldl step _ _) (funext₂ fun g b => ?_)
  rw [show 16 * b.succ = 16 + 16 * b by omega, Nat.add_assoc, hrest, hrest]

/-! ### The tail (R86) -/

/-- Byte j of the tail is byte j after the last full block (R86). -/
theorem tailBytes_getD (d : List Byte) (j : Nat) : (tailBytes d).getD j 0 = d.getD (16 * (d.length / 16) + j) 0 := by
  simp [tailBytes, List.getD]

/-- Without a tail `k1` is 0, and the mixer keeps it: the condition does not change the result (C2). -/
theorem tailStep_h0 (h : EngineWords) (d : List Byte) :
    (tailStep h d).h0 = h.h0 ^^^ mixK1 (leWord ((tailBytes d).take 8)) := by
  rw [tailStep]
  dsimp only
  split
  · rfl
  · next hshort =>
    rw [List.eq_nil_of_length_eq_zero (Nat.eq_zero_of_not_pos hshort), List.take_nil, leWord, mixK1_zero]
    exact BitVec.xor_zero.symm

/-- With at most eight tail bytes `k2` is 0, and the mixer keeps it (C2). -/
theorem tailStep_h1 (h : EngineWords) (d : List Byte) :
    (tailStep h d).h1 = h.h1 ^^^ mixK2 (leWord ((tailBytes d).drop 8)) := by
  rw [tailStep]
  dsimp only
  split
  · rfl
  · next hshort =>
    rw [List.drop_eq_nil_of_le (Nat.le_of_not_lt hshort), leWord, mixK2_zero]
    exact BitVec.xor_zero.symm

/-- `k1` is the little-endian sum of tail bytes 0 to 7 (R86). -/
theorem leWord_take_tailBytes_toNat (d : List Byte) : (leWord ((tailBytes d).take 8)).toNat =
    ∑ j ∈ Finset.range (min (d.length % 16) 8), (d.getD (16 * (d.length / 16) + j) 0).toNat * 2 ^ (8 * j) := by
  rw [(leWord_toNat _ (List.length_take_le 8 _)).1, List.length_take, tailBytes_length, Nat.min_comm]
  refine Finset.sum_congr rfl fun j hj => ?_
  have hj8 : j < 8 := by have := Finset.mem_range.mp hj; omega
  rw [← tailBytes_getD, List.getD, List.getD, List.getElem?_take_of_lt hj8]

/-- `k2` is the little-endian sum of tail bytes 8 to 14 (R86). -/
theorem leWord_drop_tailBytes_toNat (d : List Byte) : (leWord ((tailBytes d).drop 8)).toNat =
    ∑ j ∈ Finset.range (d.length % 16 - 8), (d.getD (16 * (d.length / 16) + 8 + j) 0).toNat * 2 ^ (8 * j) := by
  have hlen : ((tailBytes d).drop 8).length = d.length % 16 - 8 := by rw [List.length_drop, tailBytes_length]
  rw [(leWord_toNat _ (by omega)).1, hlen]
  refine Finset.sum_congr rfl fun j _ => ?_
  rw [Nat.add_assoc, ← tailBytes_getD, List.getD, List.getD, List.getElem?_drop]

/-! ### The mixers and the finalization (R83 to R85, R87) -/

theorem mixK1_eq_rotateLeft (k : Word) : mixK1 k = (k * c1).rotateLeft 31 * c2 := by
  rw [mixK1, rotl64_eq_rotateLeft _ _ (by decide)]

theorem mixK2_eq_rotateLeft (k : Word) : mixK2 k = (k * c2).rotateLeft 33 * c1 := by
  rw [mixK2, rotl64_eq_rotateLeft _ _ (by decide)]

theorem blockStep_h0 (h : EngineWords) (k1 k2 : Word) :
    (blockStep h k1 k2).h0 = ((h.h0 ^^^ mixK1 k1).rotateLeft 27 + h.h1) * 5 + n1 := by
  rw [← rotl64_eq_rotateLeft _ _ (by decide), blockStep]

/-- The new h1 reads the new h0 (R84). -/
theorem blockStep_h1 (h : EngineWords) (k1 k2 : Word) : (blockStep h k1 k2).h1 =
    ((h.h1 ^^^ mixK2 k2).rotateLeft 31 + (blockStep h k1 k2).h0) * 5 + n2 := by
  rw [← rotl64_eq_rotateLeft _ _ (by decide), blockStep]

@[simp] theorem fmix64_zero : fmix64 0 = 0 := by decide

/-! ### The engine commands (R88 to R90) -/

/-- MM3 of a state's message, with the block count and the length from MSGLEN (R59, R89). -/
theorem mm3_message (h : EngineWords) (s : State) : mm3 h s.message =
    finalize (tailStep ((List.range (s.msglen.toNat / 16)).foldl
      (fun g b => blockStep g (le64 s.message (16 * b)) (le64 s.message (16 * b + 8))) h) s.message)
      s.msglen.toNat := by
  rw [mm3, blockLoop, message_length]

/-- A completion keeps the engines. -/
@[simp] theorem State.engine_succeed (s : State) (e : EngineSel) : s.succeed.engine e = s.engine e := by cases e <;> rfl

@[simp] theorem engine_errorState (s : State) (c : ErrCode) (e : EngineSel) :
    (errorState s c).engine e = s.engine e := by cases e <;> rfl

/-- The message is an input: what keeps the inputs keeps it. -/
theorem KeepsInputs.message {s t : State} (h : KeepsInputs s t) : t.message = s.message :=
  message_congr h.msglen fun j _ => h.msgByte j

section
variable {e : EngineSel} {s t : State}

theorem effectOf_hwrite_of_fits (h : s.msglen.toNat ≤ s.params.msgmax) :
    effectOf (.hwrite e) s = .ok (s.setEngine e (mm3 (s.engine e) s.message)) :=
  hwriteEffect_ok (Bool.eq_false_iff.mpr fun hl => Nat.not_lt.mpr h (messageTooLong_iff.mp hl))

theorem exec_hwrite_of_long (h : s.params.msgmax < s.msglen.toNat) :
    exec (.hwrite e) s = .next (errorState s .hashWrite) :=
  exec_of_error (hwriteEffect_long (messageTooLong_iff.mpr h)) (by decide)

/-- A command whose effect succeeds ends in no state but the effect's, completed (R63). -/
theorem eq_succeed_of_exec {i : Instr} {u : State} (hu : effectOf i s = .ok u) (h : exec i s = .next t) :
    t = u.succeed := by
  simpa [exec_eq_conclude, hu, conclude, eq_comm] using h

/-- After HRESET e both words of engine e are its seed (R88). -/
theorem engine_of_exec_hreset (h : exec (.hreset e) s = .next t) : t.engine e = ⟨s.seed e, s.seed e⟩ := by
  rw [eq_succeed_of_exec (i := .hreset e) rfl h, State.engine_succeed, State.seedEngine, State.engine_setEngine]

/-- After HWRITE e over a message that fits, engine e holds the digest of the message from the words it held, and
ERRCODE is OK (R89, R90). -/
theorem engine_of_exec_hwrite (hfits : s.msglen.toNat ≤ s.params.msgmax) (h : exec (.hwrite e) s = .next t) :
    t.engine e = mm3 (s.engine e) s.message ∧ t.status.errcode = .ok := by
  obtain rfl := eq_succeed_of_exec (effectOf_hwrite_of_fits hfits) h
  exact ⟨by rw [State.engine_succeed, State.engine_setEngine], rfl⟩

end

/-! ### The statements of 40_hash.md -/

/-- Settles O20: the effect is one engine reset, which cannot fail. -/
theorem hresetLoadsTheSeed : Obligations.HresetLoadsTheSeed := by
  unfold Obligations.HresetLoadsTheSeed
  intro s
  exact ⟨exec_of_ok (i := .hreset .e0) rfl, exec_of_ok (i := .hreset .e1) rfl⟩

/-- Settles O21: the computation of the statement is MM3 of the message, and the effect of HWRITE is that on one engine,
or HASH_WRITE. -/
theorem hwriteDigestsTheMessage : Obligations.HwriteDigestsTheMessage := by
  unfold Obligations.HwriteDigestsTheMessage
  rintro s _ run rfl hrun
  have hmm3 : ∀ h, run h = mm3 h s.message := fun h => (hrun h).trans (mm3_message h s).symm
  refine ⟨fun hfits => ?_, fun hlong _ => exec_hwrite_of_long hlong⟩
  have heffect : ∀ e, effectOf (.hwrite e) s = .ok (s.setEngine e (run (s.engine e))) := fun e => by
    rw [effectOf_hwrite_of_fits hfits, hmm3]
  exact ⟨exec_of_ok (heffect .e0), exec_of_ok (heffect .e1)⟩

/-- Settles O22: sixteen bytes in front are the loop's first block, and fewer than sixteen are none. -/
theorem blockLoopPeelsBlocks : Obligations.BlockLoopPeelsBlocks := by
  unfold Obligations.BlockLoopPeelsBlocks
  exact ⟨fun h _ y hx => blockLoop_append_block h y hx, blockLoop_short⟩

/-- Settles O23: the rotation of R10 is the library's, and the rest is each function's definition. -/
theorem mixersRotate : Obligations.MixersRotate := by
  unfold Obligations.MixersRotate
  intro h k k1 k2 n d
  exact ⟨mixK1_eq_rotateLeft k, mixK2_eq_rotateLeft k, blockStep_h0 h k1 k2, blockStep_h1 h k1 k2,
    ⟨_, _, rfl, rfl, rfl⟩, ⟨_, _, rfl, rfl, rfl, rfl⟩, mixK1_zero, mixK2_zero, fmix64_zero, rfl⟩

/-- Settles O24: the two words are those of the tail's first eight bytes and of the bytes behind them. -/
theorem tailStepFoldsTheTailBytes : Obligations.TailStepFoldsTheTailBytes := by
  unfold Obligations.TailStepFoldsTheTailBytes
  intro h d
  exact ⟨_, _, leWord_take_tailBytes_toNat d, leWord_drop_tailBytes_toNat d, tailStep_h0 h d, tailStep_h1 h d⟩

/-- Settles O25: each HWRITE digests from the words it finds, the first from the seed, which HRESET has put there
without a change to the message. -/
theorem hwriteWithoutResetChains : Obligations.HwriteWithoutResetChains := by
  unfold Obligations.HwriteWithoutResetChains
  intro e s s1 s2 u v hfits hreset hwrite hkept hfits' hwrite'
  have hinputs : KeepsInputs s s1 := (commandsNeverWriteTheirInputs _ s s1 hreset).1
  have hfits1 : s1.msglen.toNat ≤ s1.params.msgmax := by rwa [hinputs.msglen, hinputs.params]
  calc v.engine e
      = mm3 (u.engine e) u.message := (engine_of_exec_hwrite hfits' hwrite').1
    _ = mm3 (mm3 (s1.engine e) s1.message) u.message := by rw [hkept, (engine_of_exec_hwrite hfits1 hwrite).1]
    _ = mm3 (mm3 ⟨s.seed e, s.seed e⟩ s.message) u.message := by rw [engine_of_exec_hreset hreset, hinputs.message]

/-- Settles O26: equal bytes below MSGLEN are equal messages; a message that is too long is refused on both sides. -/
theorem hwriteReadsOnlyItsMessage : Obligations.HwriteReadsOnlyItsMessage := by
  unfold Obligations.HwriteReadsOnlyItsMessage
  intro e s s' t t' hengine hlen hparams hbytes ht ht'
  rcases Nat.lt_or_ge s.params.msgmax s.msglen.toNat with hlong | hfits
  · rw [exec_hwrite_of_long hlong] at ht
    rw [exec_hwrite_of_long (by rwa [← hparams, ← hlen])] at ht'
    cases ht
    cases ht'
    exact ⟨by simp [hengine], rfl⟩
  · obtain ⟨hdigest, hok⟩ := engine_of_exec_hwrite hfits ht
    obtain ⟨hdigest', hok'⟩ := engine_of_exec_hwrite (by rwa [← hparams, ← hlen]) ht'
    have hmessage : s.message = s'.message := message_congr hlen fun j hj => hbytes j (hlen ▸ hj)
    exact ⟨by rw [hdigest, hdigest', hengine, hmessage], hok.trans hok'.symm⟩

end Sys2Proof.Machine

namespace Sys2Proof.Machine

/-! ### The statements of 41_index.md -/

/-- The wrapping sum of the index function is the integer sum modulo 2^64 (R10, R97). -/
theorem indexSum_toNat (a b i : Word) : (a + i * b + i * i * i).toNat =
    (a.toNat + i.toNat * b.toNat + i.toNat * i.toNat * i.toNat) % 2 ^ 64 := by
  simp only [BitVec.toNat_add, BitVec.toNat_mul, Nat.mod_mul_mod, Nat.mod_add_mod, Nat.add_mod_mod]

/-- The index function over the integers: the sum wraps before the reduction modulo m (R97). -/
theorem idx_toNat (a b i : Word) {m : Word} (hm : m ≠ 0) : (idx a b i m).toNat =
    (a.toNat + i.toNat * b.toNat + i.toNat * i.toNat * i.toNat) % 2 ^ 64 % m.toNat := by
  rw [idx, modWord_toNat _ m hm, indexSum_toNat]

/-- Settles O27: the sum wraps as the integers modulo 2^64 do, and a remainder lies below its modulus. -/
theorem indexFunctionIsTheWrappedSumModM : Obligations.IndexFunctionIsTheWrappedSumModM := by
  unfold Obligations.IndexFunctionIsTheWrappedSumModM
  intro a b i m hm
  exact ⟨idx_toNat a b i hm, modWord_lt _ m hm⟩

/-- Settles O28: the effect of INDEX in each of its three cases, completed. -/
theorem indexCommand : Obligations.IndexCommand := by
  unfold Obligations.IndexCommand
  intro s
  exact ⟨fun hc hr => exec_of_ok (i := .index) (indexEffect_ok hc hr),
    fun hc => exec_of_error (indexEffect_unconfigured hc) (by decide),
    fun hc hr => exec_of_error (indexEffect_range hc hr) (by decide)⟩

end Sys2Proof.Machine

namespace Sys2Proof.Machine

/-! ### What a command or a host access does to the cells (R102, R103, R109) -/

/-- From s to t the cells listed in `js` are set, every other cell is as it was, and M is kept. -/
structure Marks (js : List Nat) (s t : State) : Prop where
  m : t.m = s.m
  bit : ∀ j, t.bit j = true ↔ s.bit j = true ∨ j ∈ js

/-- Where the storage and M stand, no cell is marked. -/
theorem Marks.of_same {s t : State} (hm : t.m = s.m) (hc : t.cells = s.cells) (he : t.epoch = s.epoch) :
    Marks [] s t := ⟨hm, fun j => by simp [State.bit_congr hc he j]⟩

/-- A successful completion changes no cell (R27). -/
theorem Marks.succeed {js : List Nat} {s u : State} (h : Marks js s u) : Marks js s u.succeed :=
  ⟨h.m, h.bit⟩

/-- Nor does a write of RESULT. -/
theorem Marks.setResult {js : List Nat} {s u : State} (h : Marks js s u) (r : Word) : Marks js s (u.setResult r) :=
  ⟨h.m, h.bit⟩

/-- `markCells` marks the cells it is given, also where the engines were written before (R103, R114). -/
theorem Marks.markCells {s u : State} (hm : u.m = s.m) (hb : u.bit = s.bit) (js : List Nat) :
    Marks js s (markCells js u).1 := by
  refine ⟨?_, fun j => by rw [markCells_bit, hb]⟩
  rw [markCells_frame]
  exact hm

/-- All that a command can do to the cells between s and t (R109). -/
inductive VectorEffect (i : Instr) (s t : State) : Prop where
  /-- CONFIGURE and CLEAR empty the vector (R102, R112). -/
  | emptied (command : i = .configure ∨ i = .clear) (zero : ∀ j, t.bit j = false)
  /-- Cells are set, which lie below M where the invariant holds; none is cleared. -/
  | marked (js : List Nat) (marks : Marks js s t) (below : Inv s → ∀ j ∈ js, j < s.m.toNat)

/-- Where the storage and M stand, the vector is as it was. -/
theorem VectorEffect.of_same {i : Instr} {s t : State} (hm : t.m = s.m) (hc : t.cells = s.cells)
    (he : t.epoch = s.epoch) : VectorEffect i s t := .marked [] (.of_same hm hc he) nofun

/-- Every successful effect does one of the two. -/
theorem effectOf_vector {i : Instr} {s u : State} (h : effectOf i s = .ok u) : VectorEffect i s u := by
  cases i with
  | nop => cases h; exact .of_same rfl rfl rfl
  | configure =>
    obtain ⟨-, rfl⟩ := configureEffect_eq_ok h
    exact .emptied (.inl rfl) fun j => by simp [configured_eq, State.bit]
  | clear =>
    obtain ⟨-, rfl⟩ := clearEffect_eq_ok h
    exact .emptied (.inr rfl) (State.bit_clearCells s)
  | hreset e => cases h; exact .of_same (by simp) (by simp) (by simp)
  | hwrite e =>
    obtain ⟨d, rfl⟩ := hwriteEffect_eq_ok h
    exact .of_same (by simp) (by simp) (by simp)
  | index =>
    obtain ⟨r, rfl⟩ := indexEffect_eq_ok h
    exact .of_same rfl rfl rfl
  | test =>
    obtain ⟨r, rfl⟩ := testEffect_eq_ok h
    exact .of_same rfl rfl rfl
  | mark =>
    obtain ⟨-, hlt, rfl⟩ := markEffect_eq_ok h
    have hmarks : Marks [s.arg0.toNat] s (markCell s.arg0.toNat s).1 := .markCells (u := s) rfl rfl [s.arg0.toNat]
    exact .marked _ (hmarks.setResult _) fun _ => by simpa using hlt
  | popcnt => cases h; exact .of_same rfl rfl rfl
  | set =>
    obtain ⟨hc, rfl⟩ := setEffect_eq_ok h
    have hmarks := Marks.markCells (digestBoth_m s) (digestBoth_bit s) (digestBoth s).enginePositions
    refine .marked _ (hmarks.setResult _) fun hi => ?_
    simpa using hi.digestBoth.enginePositions_lt (by simpa using hc)
  | includes =>
    obtain ⟨r, rfl⟩ := includesEffect_eq_ok h
    exact .of_same (by simp) (by simp) (by simp)

/-- So does every command's completion: an error changes no cell (R126). -/
theorem exec_vector {i : Instr} {s t : State} (h : exec i s = .next t) : VectorEffect i s t := by
  rcases exec_outcome h with ⟨c, -, rfl⟩ | ⟨u, hu, rfl⟩
  · exact .of_same rfl rfl rfl
  · cases effectOf_vector hu with
    | emptied command zero => exact .emptied command zero
    | marked js marks below => exact .marked js marks.succeed below

/-- A step that is no CONFIGURE, CLEAR or reset only marks cells (R106). -/
theorem exists_marks_of_step {s t : State} (h : step s = .next t) (he : ¬ emptying s) : ∃ js, Marks js s t := by
  cases stepIs_of_step h with
  | completion w due completes =>
    rcases completeWord_cases completes with ⟨i, hi, hexec⟩ | ⟨r, -, rfl⟩
    · cases exec_vector hexec with
      | emptied command zero =>
        obtain rfl := encode_of_decode hi
        rcases command with rfl | rfl
        · exact absurd (.inr (.inl due)) he
        · exact absurd (.inr (.inr due)) he
      | marked js marks below => exact ⟨js, marks⟩
    · exact ⟨[], .of_same rfl rfl rfl⟩
  | reset n rest host op eq => exact absurd (.inl op) he
  | harmless n d rest rs host op eq => exact ⟨[], eq ▸ .of_same rfl rfl rfl⟩
  | dropped a v n rest host op aligned busy eq => exact ⟨[], eq ▸ .of_same rfl rfl rfl⟩
  | written a v rest host op aligned idle eq => exact ⟨[], .of_same (by simp [eq]) (by simp [eq]) (by simp [eq])⟩

/-- A bus access keeps the cells (R58). -/
theorem serve_bit (q : BusRequest) (s : State) (j : Nat) : (serve q s).bit j = s.bit j := by
  have hsame : (serve q s).cells = s.cells ∧ (serve q s).epoch = s.epoch := by
    cases q with
    | read a => rw [serve_read]; split_ifs <;> simp
    | write a strb v => rw [serve_write]; split_ifs <;> simp
  exact State.bit_congr hsame.1 hsame.2 j

/-- Where no set cell is cleared, the count below n grows by the number of cells below n that became 1 (R106). -/
theorem countCells_of_grows {s t : State} (h : ∀ j, s.bit j = true → t.bit j = true) (n : Nat) :
    t.countCells n = s.countCells n +
      ((Finset.range n).filter (fun j => s.bit j = false ∧ t.bit j = true)).card := by
  rw [State.countCells_eq_card, State.countCells_eq_card, ← Finset.card_union_of_disjoint]
  · congr 1
    ext j
    have := h j
    simp only [Finset.mem_union, Finset.mem_filter]
    cases hs : s.bit j <;> simp_all
  · exact Finset.disjoint_filter.mpr fun j _ hs ⟨hs', _⟩ => by simp [hs] at hs'

/-! ### The statements of 42_bitvector.md -/

/-- Settles O31: the effect of MARK is the cell-marking primitive, which writes its cell and SETBITS. -/
theorem markSetsOneCell : Obligations.MarkSetsOneCell := by
  unfold Obligations.MarkSetsOneCell
  intro s
  refine ⟨fun hc hr => ?_, fun hc => exec_of_error (markEffect_unconfigured hc) (by decide),
    fun hc hr => exec_of_error (markEffect_range hc hr) (by decide)⟩
  obtain ⟨c, hmark⟩ := markCell_frame s.arg0.toNat s
  have hbit := markCell_bit s.arg0.toNat s
  have hexec := exec_of_ok (i := .mark) (markEffect_ok hc hr)
  rw [hmark] at hbit hexec
  exact ⟨c, _, hexec, markCell_value s.arg0.toNat s, hbit⟩

/-- Settles O32: the recursive count is the size of the set of 1 cells. -/
theorem popcntCountsTheCells : Obligations.PopcntCountsTheCells := by
  unfold Obligations.PopcntCountsTheCells
  intro s
  rw [← State.countCells_eq_card]
  exact exec_of_ok (i := .popcnt) rfl

/-- Settles O33: the invariant holds SETBITS to the count that POPCNT takes. -/
theorem popcntAgreesWithSetbits : Obligations.PopcntAgreesWithSetbits := by
  unfold Obligations.PopcntAgreesWithSetbits
  intro s t hi h
  obtain rfl := eq_succeed_of_exec (i := .popcnt) rfl h
  have hle : s.setbits.toNat ≤ s.m.toNat := hi.count ▸ s.countCells_le s.m.toNat
  refine ⟨?_, hle, hle.trans hi.m_le⟩
  change BitVec.ofNat 64 (s.countCells s.m.toNat) = s.setbits
  rw [← hi.count, BitVec.ofNat_toNat, BitVec.setWidth_eq]

/-- Settles O34: the step only marks cells and keeps M, and SETBITS is the count below M before and after. -/
theorem cellsAndCountOnlyGrow : Obligations.CellsAndCountOnlyGrow := by
  unfold Obligations.CellsAndCountOnlyGrow
  intro s t hi h he
  obtain ⟨js, hm, hbit⟩ := exists_marks_of_step h he
  have hgrows : ∀ j, s.bit j = true → t.bit j = true := fun j hj => (hbit j).mpr (.inl hj)
  refine ⟨hgrows, ?_⟩
  rw [(hi.step h).count, hi.count, hm, countCells_of_grows hgrows]

/-- Settles O35: a command empties the vector or marks cells below M, and a bus access keeps the cells. -/
theorem noCellAboveMIsWritten : Obligations.NoCellAboveMIsWritten := by
  unfold Obligations.NoCellAboveMIsWritten
  refine ⟨fun i s t j hi h ht hs => ?_, fun i s t j h hconf hclear hs => ?_, serve_bit⟩
  · cases exec_vector h with
    | emptied command zero => simp [zero j] at ht
    | marked js marks below => exact below hi j (((marks.bit j).mp ht).resolve_left (by simp [hs]))
  · cases exec_vector h with
    | emptied command zero => exact (command.elim hconf hclear).elim
    | marked js marks below => exact (marks.bit j).mpr (.inl hs)

/-- Settles O29: the effect of CLEAR is the whole-structure reset. -/
theorem clearEmptiesTheVector : Obligations.ClearEmptiesTheVector := by
  unfold Obligations.ClearEmptiesTheVector
  intro s
  exact ⟨fun hc => ⟨_, exec_of_ok (i := .clear) (clearEffect_ok hc), State.bit_clearCells s⟩,
    fun hc => exec_of_error (clearEffect_unconfigured hc) (by decide)⟩

/-- Settles O30: the effect of TEST in each of its three cases, completed. -/
theorem testReadsOneCell : Obligations.TestReadsOneCell := by
  unfold Obligations.TestReadsOneCell
  intro s
  exact ⟨fun hc hr => exec_of_ok (i := .test) (testEffect_ok hc hr),
    fun hc => exec_of_error (testEffect_unconfigured hc) (by decide),
    fun hc hr => exec_of_error (testEffect_range hc hr) (by decide)⟩

end Sys2Proof.Machine

namespace Sys2Proof.Machine

/-! ### What keeps the geometry (R26, R113) -/

/-- M, K and CONFIGURED are the same in both states. -/
structure SameGeometry (s t : State) : Prop where
  m : t.m = s.m
  k : t.k = s.k
  configured : t.status.configured = s.status.configured

/-- Marking cells keeps the geometry (R103). -/
theorem sameGeometry_markCells (js : List Nat) (s : State) : SameGeometry s (markCells js s).1 := by
  rw [markCells_frame]
  exact ⟨rfl, rfl, rfl⟩

/-- Writing RESULT keeps the geometry. -/
theorem SameGeometry.setResult {s u : State} (h : SameGeometry s u) (r : Word) : SameGeometry s (u.setResult r) :=
  ⟨h.m, h.k, h.configured⟩

/-- Writing an engine keeps the geometry. -/
theorem sameGeometry_setEngine (s : State) (e : EngineSel) (h : EngineWords) : SameGeometry s (s.setEngine e h) :=
  ⟨by simp, by simp, by simp⟩

/-- Digesting the message keeps the geometry. -/
theorem sameGeometry_digestBoth (s : State) : SameGeometry s (digestBoth s) := ⟨by simp, by simp, by simp⟩

/-- Keeping the geometry twice keeps it. -/
theorem SameGeometry.trans {s t u : State} (h : SameGeometry s t) (h' : SameGeometry t u) : SameGeometry s u :=
  ⟨h'.m.trans h.m, h'.k.trans h.k, h'.configured.trans h.configured⟩

/-- A successful effect is the new filter of CONFIGURE, or keeps the geometry (R113). -/
theorem effectOf_geometry {i : Instr} {s u : State} (h : effectOf i s = .ok u) :
    i = .configure ∧ u = configured s ∨ SameGeometry s u := by
  have same : SameGeometry s s := ⟨rfl, rfl, rfl⟩
  cases i with
  | nop => cases h; exact .inr same
  | configure => exact .inl ⟨rfl, (configureEffect_eq_ok h).2⟩
  | clear =>
    obtain ⟨-, rfl⟩ := clearEffect_eq_ok h
    exact .inr ⟨rfl, rfl, rfl⟩
  | hreset e => cases h; exact .inr (sameGeometry_setEngine s e _)
  | hwrite e =>
    obtain ⟨d, rfl⟩ := hwriteEffect_eq_ok h
    exact .inr (sameGeometry_setEngine s e d)
  | index =>
    obtain ⟨r, rfl⟩ := indexEffect_eq_ok h
    exact .inr (same.setResult r)
  | test =>
    obtain ⟨r, rfl⟩ := testEffect_eq_ok h
    exact .inr (same.setResult r)
  | mark =>
    obtain ⟨-, -, rfl⟩ := markEffect_eq_ok h
    exact .inr ((sameGeometry_markCells [s.arg0.toNat] s).setResult _)
  | popcnt => cases h; exact .inr (same.setResult _)
  | set =>
    obtain ⟨-, rfl⟩ := setEffect_eq_ok h
    exact .inr (((sameGeometry_digestBoth s).trans (sameGeometry_markCells _ _)).setResult _)
  | includes =>
    obtain ⟨r, rfl⟩ := includesEffect_eq_ok h
    exact .inr ((sameGeometry_digestBoth s).setResult r)

/-- A step keeps the geometry, resets the block, or completes a CONFIGURE with its new filter (R113). -/
theorem step_geometry {s t : State} (h : step s = .next t) : SameGeometry s t ∨ resetting s ∨
    completing s = some (encode .configure) ∧ t = (configured s).succeed := by
  cases stepIs_of_step h with
  | completion w due completes =>
    rcases completeWord_outcome completes with ⟨c, -, rfl⟩ | ⟨i, u, rfl, hu, rfl⟩
    · exact .inl ⟨rfl, rfl, rfl⟩
    · rcases effectOf_geometry hu with ⟨rfl, rfl⟩ | same
      · exact .inr (.inr ⟨due, rfl⟩)
      · exact .inl ⟨same.m, same.k, same.configured⟩
  | reset n rest host op eq => exact .inr (.inl op)
  | harmless n d rest rs host op eq => subst eq; exact .inl ⟨rfl, rfl, rfl⟩
  | dropped a v n rest host op aligned busy eq => subst eq; exact .inl ⟨rfl, rfl, rfl⟩
  | written a v rest host op aligned idle eq =>
    subst eq
    exact .inl ⟨by simp, by simp, by simp [apply_ite Status.configured, Status.writeOneToClear]⟩

/-- A new filter is empty (R112). -/
theorem bit_configured (s : State) (j : Nat) : (configured s).bit j = false := by
  simp [configured_eq, State.bit]

/-! ### What SET and INCLUDES are, and the positions of a message (R101, R114, R116) -/

/-- The positions of the message under the seeds and the geometry of the block (R100, R101). -/
def State.messagePositions (s : State) : List Nat :=
  positions (digest s.seed0 s.message).h0 (digest s.seed1 s.message).h0 s.k s.m

/-- They are those that SET and INCLUDES visit: the positions of the engines after the digests. -/
theorem enginePositions_digestBoth (s : State) : (digestBoth s).enginePositions = s.messagePositions :=
  digestBoth_enginePositions s

/-- A message that fits is not too long (R35). -/
theorem messageTooLong_eq_false {s : State} (h : s.msglen.toNat ≤ s.params.msgmax) : s.messageTooLong = false :=
  Bool.eq_false_iff.mpr fun hl => Nat.not_lt.mpr h (messageTooLong_iff.mp hl)

/-- The effect of SET, field by field (R114). -/
theorem exists_setEffect_eq {s : State} (hc : s.status.configured = true) (hl : s.messageTooLong = false) :
    ∃ c r, setEffect s = .ok { s with
        eng0 := digest s.seed0 s.message, eng1 := digest s.seed1 s.message, cells := c, result := r,
        setbits := s.setbits + r } ∧
      (∀ j, ({ s with cells := c } : State).bit j = true ↔ s.bit j = true ∨ j ∈ s.messagePositions) ∧
      r = BitVec.ofNat 64 (s.messagePositions.toFinset.filter (fun j => s.bit j = false)).card := by
  have heffect := setEffect_ok hc hl
  have hframe := markCells_frame s.messagePositions (digestBoth s)
  have hbit := markCells_bit s.messagePositions (digestBoth s)
  have hvalue := markCells_value s.messagePositions (digestBoth s)
  rw [enginePositions_digestBoth] at heffect
  rw [digestBoth_bit] at hbit hvalue
  generalize markCells s.messagePositions (digestBoth s) = marked at heffect hframe hbit hvalue
  refine ⟨marked.1.cells, marked.2, ?_, fun j => ?_, hvalue⟩
  · rw [heffect, hframe, digestBoth_eq]
    rfl
  · have hepoch : marked.1.epoch = s.epoch := by rw [hframe, digestBoth_epoch]
    rw [← hbit, State.bit_congr (t := marked.1) (s := { s with cells := marked.1.cells }) rfl hepoch]

/-- The effect of INCLUDES, field by field (R116). -/
theorem includesEffect_eq {s : State} (hc : s.status.configured = true) (hl : s.messageTooLong = false) :
    includesEffect s = .ok { s with
      eng0 := digest s.seed0 s.message, eng1 := digest s.seed1 s.message,
      result := if s.messagePositions.all s.bit then 1 else 0 } := by
  rw [includesEffect_ok hc hl, enginePositions_digestBoth, digestBoth_bit, digestBoth_eq]
  rfl

/-- A command that completes with OK has had its effect (R63, R126). -/
theorem effectOf_of_exec_ok {i : Instr} {s t : State} (h : exec i s = .next t) (hok : t.status.errcode = .ok) :
    ∃ u, effectOf i s = .ok u ∧ t = u.succeed := by
  rcases exec_outcome h with ⟨c, hc, rfl⟩ | heffect
  · exact absurd hok hc
  · exact heffect

/-- SET and INCLUDES complete with OK only on a configured block whose message fits (R125). -/
theorem fits_of_exec_ok {i : Instr} {s t : State} (hi : i = .set ∨ i = .includes) (h : exec i s = .next t)
    (hok : t.status.errcode = .ok) : s.status.configured = true ∧ s.messageTooLong = false := by
  obtain ⟨u, hu, -⟩ := effectOf_of_exec_ok h hok
  rcases long_cases s.messageTooLong s.status.configured with hc | ⟨hc, hl⟩ | hfits
  · rcases hi with rfl | rfl
    · simp [effectOf, setEffect_unconfigured hc] at hu
    · simp [effectOf, includesEffect_unconfigured hc] at hu
  · rcases hi with rfl | rfl
    · simp [effectOf, setEffect_long hc hl] at hu
    · simp [effectOf, includesEffect_long hc hl] at hu
  · exact hfits

/-- What SET and INCLUDES have in common when they complete from s to t with OK: the engines take the digests of the
message, and the geometry is kept (R114, R116, R121). -/
structure DigestsMessage (s t : State) : Prop where
  eng0 : t.eng0 = digest s.seed0 s.message
  eng1 : t.eng1 = digest s.seed1 s.message
  geometry : SameGeometry s t

/-- They do so whenever they complete with OK. -/
theorem digestsMessage_of_exec_ok {i : Instr} {s t : State} (hi : i = .set ∨ i = .includes) (h : exec i s = .next t)
    (hok : t.status.errcode = .ok) : DigestsMessage s t := by
  obtain ⟨hc, hl⟩ := fits_of_exec_ok hi h hok
  rcases hi with rfl | rfl
  · obtain ⟨c, r, heffect, -⟩ := exists_setEffect_eq hc hl
    obtain rfl := eq_succeed_of_exec (i := .set) heffect h
    exact ⟨rfl, rfl, rfl, rfl, rfl⟩
  · obtain rfl := eq_succeed_of_exec (i := .includes) (includesEffect_eq hc hl) h
    exact ⟨rfl, rfl, rfl, rfl, rfl⟩

/-- INDEX where a command has just completed with OK writes RESULT and nothing else (R98). -/
theorem exec_index_of_completed {t : State} {a : Word} (hok : t.status.errcode = .ok) (hidle : t.pending = none)
    (hc : t.status.configured = true) (ha : a.toNat < t.k.toNat) (w : Word) (n d : Nat) :
    exec .index { t with arg0 := a, cmd := w, pending := some w, wait := n, draws := d } =
      .next { t with arg0 := a, cmd := w, wait := n, draws := d, result := idx t.eng0.h0 t.eng1.h0 a t.m } := by
  have heffect := indexEffect_ok (s := { t with arg0 := a, cmd := w, pending := some w, wait := n, draws := d }) hc ha
  rw [exec_of_ok (i := .index) heffect, hidle, ← hok]
  rfl

/-! ### The positions of a message that was SET (R115, R118) -/

/-- After SET every position of its message is set (R114). -/
theorem bit_of_exec_set {s t : State} (h : exec .set s = .next t) (hok : t.status.errcode = .ok) :
    ∀ j ∈ s.messagePositions, t.bit j = true := by
  obtain ⟨hc, hl⟩ := fits_of_exec_ok (.inl rfl) h hok
  obtain ⟨c, r, heffect, hbit, -⟩ := exists_setEffect_eq hc hl
  obtain rfl := eq_succeed_of_exec (i := .set) heffect h
  exact fun j hj => (hbit j).mpr (.inr hj)

/-- The filter of t is that of s with more cells set: geometry and seeds are the same (R118). -/
structure ExtendsFilter (s t : State) : Prop where
  geometry : SameGeometry s t
  seed0 : t.seed0 = s.seed0
  seed1 : t.seed1 = s.seed1
  grows : ∀ j, s.bit j = true → t.bit j = true

/-- Extensions compose. -/
theorem ExtendsFilter.trans {s t u : State} (h : ExtendsFilter s t) (h' : ExtendsFilter t u) : ExtendsFilter s u :=
  ⟨h.geometry.trans h'.geometry, h'.seed0.trans h.seed0, h'.seed1.trans h.seed1,
    fun j hj => h'.grows j (h.grows j hj)⟩

/-- A step without CONFIGURE, CLEAR, reset or seed change extends the filter (R106, R113). -/
theorem extendsFilter_of_quietStep {s t : State} (h : QuietStep s t) : ExtendsFilter s t := by
  obtain ⟨hstep, hquiet, hseed0, hseed1⟩ := h
  obtain ⟨js, -, hbit⟩ := exists_marks_of_step hstep hquiet
  refine ⟨?_, hseed0, hseed1, fun j hj => (hbit j).mpr (.inl hj)⟩
  rcases step_geometry hstep with same | hreset | ⟨hconfigure, -⟩
  · exact same
  · exact absurd (.inl hreset) hquiet
  · exact absurd (.inr (.inl hconfigure)) hquiet

/-- So does any run of such steps. -/
theorem extendsFilter_of_quietRun {s t : State} (h : QuietRun s t) : ExtendsFilter s t := by
  induction h with
  | refl => exact ⟨⟨rfl, rfl, rfl⟩, rfl, rfl, fun _ hj => hj⟩
  | tail _ hstep ih => exact ih.trans (extendsFilter_of_quietStep hstep)

/-- The positions depend on the seeds, the geometry and the message alone (R101). -/
theorem messagePositions_congr {s t : State} (hg : SameGeometry s t) (h0 : t.seed0 = s.seed0) (h1 : t.seed1 = s.seed1)
    (hm : t.message = s.message) : t.messagePositions = s.messagePositions := by
  rw [State.messagePositions, State.messagePositions, hg.m, hg.k, h0, h1, hm]

/-- After a SET that completes with OK and a quiet run, every position of the same message is set. -/
theorem bit_of_set_quietRun {s t u : State} (h : exec .set s = .next t) (hok : t.status.errcode = .ok)
    (hrun : QuietRun t u) (hm : u.message = s.message) : ∀ j ∈ u.messagePositions, u.bit j = true := by
  have hset := (digestsMessage_of_exec_ok (.inl rfl) h hok).geometry
  have hinputs := (commandsNeverWriteTheirInputs _ s t h).1
  have hext := extendsFilter_of_quietRun hrun
  rw [messagePositions_congr (hset.trans hext.geometry) (hext.seed0.trans hinputs.seed0)
    (hext.seed1.trans hinputs.seed1) hm]
  exact fun j hj => hext.grows j (bit_of_exec_set h hok j hj)

/-- Marking cells that are all set changes nothing and counts none (R103). -/
theorem markCells_of_set {js : List Nat} {s : State} (h : ∀ j ∈ js, s.bit j = true) : markCells js s = (s, 0) := by
  induction js with
  | nil => rfl
  | cons j js ih =>
    obtain ⟨hj, hjs⟩ := List.forall_mem_cons.mp h
    have hmark : markCell j s = (s, 0) := if_pos hj
    rw [markCells_cons, hmark, ih hjs]
    rfl

/-- SET of a message whose positions are all set writes the digests and RESULT = 0 (R115). -/
theorem setEffect_of_set {s : State} (hc : s.status.configured = true) (hl : s.messageTooLong = false)
    (hset : ∀ j ∈ s.messagePositions, s.bit j = true) : setEffect s = .ok ((digestBoth s).setResult 0) := by
  rw [setEffect_ok hc hl, enginePositions_digestBoth, markCells_of_set (by rwa [digestBoth_bit])]

/-! ### The statements of 43_filter.md -/

/-- Settles O36: the effect of NOP is the state itself. -/
theorem nopOnlyCompletes : Obligations.NopOnlyCompletes := by
  unfold Obligations.NopOnlyCompletes
  exact fun s => exec_of_ok (i := .nop) rfl

/-- Settles O37: the operands that are not refused are those of a legal geometry, and the new filter lists no cell. -/
theorem configureMakesAnEmptyFilter : Obligations.ConfigureMakesAnEmptyFilter := by
  unfold Obligations.ConfigureMakesAnEmptyFilter
  intro s
  refine ⟨fun hm hmle hk hkle => ?_, fun hbad =>
    exec_of_error (configureEffect_bad (badGeometry_iff.mpr hbad)) (by decide)⟩
  have hgood : s.badGeometry = false := by
    have hne : ∀ x : Word, 1 ≤ x.toNat → x ≠ 0 := by rintro x hx rfl; simp at hx
    refine Bool.eq_false_iff.mpr (mt badGeometry_iff.mp ?_)
    simp only [not_or, not_lt]
    exact ⟨hne _ hm, hmle, hne _ hk, hkle⟩
  exact ⟨_, exec_of_ok (i := .configure) (configureEffect_ok hgood), bit_configured s⟩

/-- Settles O38: the positions of the statement are those of the message, which SET marks. -/
theorem setMarksThePositions : Obligations.SetMarksThePositions := by
  unfold Obligations.SetMarksThePositions
  intro s h0 h1 pos hdigest0 hdigest1 hpos
  obtain rfl := hdigest0.trans (digest_eq _ _).symm
  obtain rfl := hdigest1.trans (digest_eq _ _).symm
  obtain rfl := funext hpos
  refine ⟨fun hc hfits => ?_, fun hc => exec_of_error (setEffect_unconfigured hc) (by decide),
    fun hc hl => exec_of_error (setEffect_long hc (messageTooLong_iff.mpr hl)) (by decide)⟩
  obtain ⟨c, r, heffect, hbit, hvalue⟩ := exists_setEffect_eq hc (messageTooLong_eq_false hfits)
  refine ⟨c, r, exec_of_ok (i := .set) heffect, fun j => ?_, ?_⟩
  · rw [hbit, State.messagePositions, mem_positions]
  · rw [hvalue, State.messagePositions, positions_toFinset]

/-- Settles O39: INCLUDES asks the positions of the message, which are those of the statement. -/
theorem includesAsksAllPositions : Obligations.IncludesAsksAllPositions := by
  unfold Obligations.IncludesAsksAllPositions
  intro s h0 h1 pos hdigest0 hdigest1 hpos
  obtain rfl := hdigest0.trans (digest_eq _ _).symm
  obtain rfl := hdigest1.trans (digest_eq _ _).symm
  obtain rfl := funext hpos
  refine ⟨fun hc hfits => ?_, fun hc => exec_of_error (includesEffect_unconfigured hc) (by decide),
    fun hc hl => exec_of_error (includesEffect_long hc (messageTooLong_iff.mpr hl)) (by decide)⟩
  have hall : s.messagePositions.all s.bit = true ↔ ∀ i, i < s.k.toNat → s.bit (idx (digest s.seed0 s.message).h0
      (digest s.seed1 s.message).h0 (BitVec.ofNat 64 i) s.m).toNat = true := by
    simp [State.messagePositions, positions]
  refine ⟨_, exec_of_ok (i := .includes) (includesEffect_eq hc (messageTooLong_eq_false hfits)),
    fun h => if_pos (hall.mpr h), fun h => if_neg (mt hall.mp h)⟩

/-- Settles O40: the second SET finds every position of its message set. -/
theorem secondSetChangesNothing : Obligations.SecondSetChangesNothing := by
  unfold Obligations.SecondSetChangesNothing
  intro s t u v hset hok hrun hm hset' hok'
  obtain ⟨hc, hl⟩ := fits_of_exec_ok (.inl rfl) hset' hok'
  have heffect := setEffect_of_set hc hl (bit_of_set_quietRun hset hok hrun hm)
  obtain rfl := eq_succeed_of_exec (i := .set) heffect hset'
  simp

/-- Settles O41: INCLUDES finds every position of its message set. -/
theorem noFalseNegatives : Obligations.NoFalseNegatives := by
  unfold Obligations.NoFalseNegatives
  intro s t u v hset hok hrun hm hincludes hok'
  obtain ⟨hc, hl⟩ := fits_of_exec_ok (.inr rfl) hincludes hok'
  obtain rfl := eq_succeed_of_exec (i := .includes) (includesEffect_eq hc hl) hincludes
  exact if_pos (List.all_eq_true.mpr (bit_of_set_quietRun hset hok hrun hm))

/-- Settles O42: INDEX reads the digests that SET or INCLUDES left, on the same geometry. -/
theorem indexReplaysThePositions : Obligations.IndexReplaysThePositions := by
  unfold Obligations.IndexReplaysThePositions
  intro i s t a w n d hi h hok
  obtain ⟨hc, -⟩ := fits_of_exec_ok hi h hok
  obtain ⟨heng0, heng1, hgeometry⟩ := digestsMessage_of_exec_ok hi h hok
  have hidle := pending_eq_none_of_idle (commandsNeverWriteTheirInputs _ s t h).2
  refine ⟨heng0, heng1, fun ha => ?_⟩
  rw [← digest_eq, ← digest_eq, ← heng0, ← heng1, ← hgeometry.m]
  exact exec_index_of_completed hok hidle (hgeometry.configured.trans hc) (by rwa [hgeometry.k]) w n d

/-- Settles O48: the one completion that changes the geometry is that of CONFIGURE, with a new, empty filter. -/
theorem geometryChangesOnlyByConfigureOrReset : Obligations.GeometryChangesOnlyByConfigureOrReset := by
  unfold Obligations.GeometryChangesOnlyByConfigureOrReset
  intro s t h hchange
  rcases step_geometry h with same | hreset | ⟨hconfigure, rfl⟩
  · simp [same.m, same.k, same.configured] at hchange
  · exact .inl hreset
  · exact .inr ⟨hconfigure, rfl, rfl, bit_configured s⟩

end Sys2Proof.Machine

namespace Sys2Proof.Machine

/-! ### The one code of a completion (R122, R125) -/

/-- The code that a command reports for its effect. -/
def codeOf : Except ErrCode State → ErrCode
  | .ok _ => .ok
  | .error c => c

@[simp] theorem codeOf_ok (u : State) : codeOf (.ok u) = .ok := rfl

@[simp] theorem codeOf_error (c : ErrCode) : codeOf (.error c) = c := rfl

/-- ERRCODE after a completion is the code of the effect (R27). -/
theorem errcode_of_exec {i : Instr} {s t : State} (h : exec i s = .next t) :
    t.status.errcode = codeOf (effectOf i s) := by
  rw [exec_eq_conclude, conclude_next] at h
  rcases h with ⟨u, hu, rfl⟩ | ⟨c, hc, rfl⟩
  · rw [hu]
    rfl
  · rw [hc]
    rfl

/-- The code of a command that needs a configured block and makes one further check, with code `c` (R125). -/
def State.gatedCode (s : State) (fails : Prop) [Decidable fails] (c : ErrCode) : ErrCode :=
  if s.status.configured then if fails then c else .ok else .notConfigured

/-- An unconfigured block is the first cause, whatever the check says (R125). -/
theorem gatedCode_unconfigured {s : State} {fails : Prop} [Decidable fails] {c : ErrCode}
    (h : s.status.configured = false) : s.gatedCode fails c = .notConfigured := if_neg (by simp [h])

/-- The first cause of an error, in R125's order, that R122 names for a legal command; OK where there is none. -/
def State.firstCause (s : State) : Instr → ErrCode
  | .nop | .hreset _ | .popcnt => .ok
  | .configure => if s.badGeometry then .invalidParam else .ok
  | .clear => s.gatedCode False .ok
  | .hwrite _ => if s.messageTooLong then .hashWrite else .ok
  | .index => s.gatedCode (s.k.toNat ≤ s.arg0.toNat) .range
  | .test | .mark => s.gatedCode (s.m.toNat ≤ s.arg0.toNat) .range
  | .set | .includes => s.gatedCode s.messageTooLong .hashWrite

/-- An effect of the three cases of a gated command reports the gated code. -/
theorem codeOf_eq_gatedCode {s : State} {r : Except ErrCode State} {fails : Prop} [Decidable fails] {c : ErrCode}
    (hgate : s.status.configured = false → r = .error .notConfigured)
    (hfail : s.status.configured = true → fails → r = .error c)
    (hok : s.status.configured = true → ¬ fails → ∃ u, r = .ok u) : codeOf r = s.gatedCode fails c := by
  cases hc : s.status.configured with
  | false => rw [hgate hc, codeOf_error, gatedCode_unconfigured hc]
  | true =>
    by_cases hf : fails
    · simp [State.gatedCode, hc, hf, hfail hc hf]
    · obtain ⟨u, hu⟩ := hok hc hf
      simp [State.gatedCode, hc, hf, hu]

/-- Each command reports its first cause (R122, R125). -/
theorem codeOf_effectOf (i : Instr) (s : State) : codeOf (effectOf i s) = s.firstCause i := by
  cases i with
  | nop | hreset _ | popcnt => rfl
  | configure =>
    cases h : s.badGeometry with
    | true => simp [effectOf, State.firstCause, configureEffect_bad h, h]
    | false => simp [effectOf, State.firstCause, configureEffect_ok h, h]
  | hwrite e =>
    cases h : s.messageTooLong with
    | true => simp [effectOf, State.firstCause, hwriteEffect_long h, h]
    | false => simp [effectOf, State.firstCause, hwriteEffect_ok h, h]
  | clear =>
    exact codeOf_eq_gatedCode clearEffect_unconfigured (fun _ => False.elim) fun hc _ => ⟨_, clearEffect_ok hc⟩
  | index =>
    exact codeOf_eq_gatedCode indexEffect_unconfigured indexEffect_range
      fun hc hr => ⟨_, indexEffect_ok hc (not_le.mp hr)⟩
  | test =>
    exact codeOf_eq_gatedCode testEffect_unconfigured testEffect_range
      fun hc hr => ⟨_, testEffect_ok hc (not_le.mp hr)⟩
  | mark =>
    exact codeOf_eq_gatedCode markEffect_unconfigured markEffect_range
      fun hc hr => ⟨_, markEffect_ok hc (not_le.mp hr)⟩
  | set =>
    exact codeOf_eq_gatedCode setEffect_unconfigured setEffect_long
      fun hc hl => ⟨_, setEffect_ok hc (Bool.eq_false_iff.mpr hl)⟩
  | includes =>
    exact codeOf_eq_gatedCode includesEffect_unconfigured includesEffect_long
      fun hc hl => ⟨_, includesEffect_ok hc (Bool.eq_false_iff.mpr hl)⟩

/-- So ERRCODE after a command is its first cause. -/
theorem errcode_eq_firstCause {i : Instr} {s t : State} (h : exec i s = .next t) :
    t.status.errcode = s.firstCause i :=
  (errcode_of_exec h).trans (codeOf_effectOf i s)

/-! ### The table of R124, and a state for each of its entries -/

/-- The codes each command can complete with (R124). -/
def possibleCodes : Instr → List ErrCode
  | .nop | .hreset _ | .popcnt => [.ok]
  | .configure => [.ok, .invalidParam]
  | .clear => [.ok, .notConfigured]
  | .hwrite _ => [.ok, .hashWrite]
  | .index | .test | .mark => [.ok, .notConfigured, .range]
  | .set | .includes => [.ok, .notConfigured, .hashWrite]

/-- A gated command has three codes. -/
theorem gatedCode_mem (s : State) (fails : Prop) [Decidable fails] (c : ErrCode) :
    s.gatedCode fails c ∈ [.ok, .notConfigured, c] := by
  unfold State.gatedCode
  split
  · split <;> simp
  · simp

/-- No state gives a command a code outside its row. -/
theorem firstCause_mem_possibleCodes (s : State) (i : Instr) : s.firstCause i ∈ possibleCodes i := by
  cases i with
  | nop | hreset _ | popcnt => exact List.mem_singleton_self _
  | configure | clear | hwrite _ =>
    simp only [State.firstCause, State.gatedCode, possibleCodes, if_false]
    split <;> simp
  | index | test | mark | set | includes => exact gatedCode_mem ..

/-- A block configured with M = K = 2 in which every command succeeds: ARG0 = 1 names a cell and an iteration, ARG0 and
ARG1 are a legal geometry, and the message is empty. -/
def servingBlock : State :=
  { configured { State.reset with arg0 := 2, arg1 := 2 } with arg0 := 1 }

/-- The same block with ARG0 = 2, beyond the filter, and a message of MSGMAX + 1 bytes. -/
def overrunBlock : State := { servingBlock with arg0 := 2, msglen := 4097 }

/-- A block on which every command whose row lists the code completes with it; ILLEGAL_CMD is in no row. -/
def blockReporting : ErrCode → State
  | .invalidParam | .notConfigured => State.reset
  | .range | .hashWrite => overrunBlock
  | .ok | .illegalCmd => servingBlock

/-- The blocks meet the invariant: they are configured with a legal geometry, or just reset. -/
theorem inv_servingBlock : Inv servingBlock := by
  have hreset : Inv { State.reset with arg0 := 2, arg1 := 2 } :=
    (inv_resetWith (by decide) 0 0).of_same ⟨rfl, rfl, rfl, rfl, rfl, rfl, rfl⟩ rfl nofun
  exact (hreset.configured (by decide)).of_same ⟨rfl, rfl, rfl, rfl, rfl, rfl, rfl⟩ rfl nofun

theorem inv_blockReporting (c : ErrCode) : Inv (blockReporting c) := by
  cases c with
  | invalidParam | notConfigured => exact inv_resetWith (by decide) 0 0
  | range | hashWrite => exact inv_servingBlock.of_same ⟨rfl, rfl, rfl, rfl, rfl, rfl, rfl⟩ rfl nofun
  | ok | illegalCmd => exact inv_servingBlock

/-- Each entry of the table is reached. -/
theorem firstCause_blockReporting {i : Instr} : ∀ c ∈ possibleCodes i, (blockReporting c).firstCause i = c := by
  cases i with
  | hreset e | hwrite e => cases e <;> decide
  | nop | configure | clear | index | test | mark | popcnt | set | includes => decide

/-! ### The completion of an illegal word (R123) -/

/-- A due word that is illegal completes with ILLEGAL_CMD. -/
theorem step_of_illegal {s : State} {w : Word} {r : DecodeError} (hp : s.pending = some w) (hw : s.wait = 0)
    (hd : decode w = .error r) : step s = .next (errorState s .illegalCmd) := by
  rw [step_of_due hp hw]
  obtain ⟨t, ht⟩ := exists_completeWord_eq_next w s
  rcases completeWord_cases ht with ⟨i, hi, -⟩ | ⟨r', -, rfl⟩
  · simp [hd] at hi
  · exact ht

/-! ### The statements of 60_exceptions.md -/

/-- Settles O45: a completion is an error's state, or a success, whose code is OK. -/
theorem errorsArePrecise : Obligations.ErrorsArePrecise := by
  unfold Obligations.ErrorsArePrecise
  intro i s t h herr
  rcases exec_outcome h with ⟨c, -, rfl⟩ | ⟨u, -, rfl⟩
  · rfl
  · exact absurd rfl herr

/-- Settles O46: ERRCODE is the command's first cause, which stays in the command's row and takes every code of it. -/
theorem errorCodesOfEachCommand : Obligations.ErrorCodesOfEachCommand := by
  unfold Obligations.ErrorCodesOfEachCommand
  intro codes hnop hconfigure hclear hhreset hhwrite hindex htest hmark hpopcnt hset hincludes
  obtain rfl : codes = possibleCodes := funext fun i => by
    cases i with
    | hreset e => exact hhreset e
    | hwrite e => exact hhwrite e
    | nop | configure | clear | index | test | mark | popcnt | set | includes => assumption
  refine ⟨fun i s t h => errcode_eq_firstCause h ▸ firstCause_mem_possibleCodes s i, fun i c hc => ?_⟩
  obtain ⟨t, ht⟩ := exists_exec_eq_next i (blockReporting c)
  exact ⟨_, t, inv_blockReporting c, ht, (errcode_eq_firstCause ht).trans (firstCause_blockReporting c hc)⟩

/-- Settles O5: the step is the error's state, whose STATUS is read field by field. -/
theorem illegalWordOnlySetsStatus : Obligations.IllegalWordOnlySetsStatus := by
  unfold Obligations.IllegalWordOnlySetsStatus
  intro s w r hp hw hd
  obtain ⟨hbusy, -, herr, hsticky, -, hcode, -⟩ := statusFieldPositions (errorState s .illegalCmd)
  have hne : ErrCode.illegalCmd.code ≠ 0 := by decide
  exact ⟨step_of_illegal hp hw hd, hcode, herr.mpr (hcode ▸ hne), hsticky, hbusy, fun hi => hi.pendingCmd w hp⟩

/-- Settles O6: every word and every turn of the host answers a next state, and a completion ends BUSY. -/
theorem everyStepAnswersANextState : Obligations.EveryStepAnswersANextState := by
  unfold Obligations.EveryStepAnswersANextState
  refine ⟨exists_step_eq_next, fun i s => ?_⟩
  obtain ⟨t, ht⟩ := exists_exec_eq_next i s
  exact ⟨t, ht, pending_eq_none_of_idle (commandsNeverWriteTheirInputs i s t ht).2⟩

/-- Settles O47: an illegal word's code does not depend on the state, a gated command's code on an unconfigured block
not on the operands, and no command raises ILLEGAL_CMD. -/
theorem errorPriority : Obligations.ErrorPriority := by
  unfold Obligations.ErrorPriority
  refine ⟨fun s t w hp hw ⟨r, hd⟩ h => ?_, fun i s t hi hc h => ?_, fun i s t h => ?_⟩
  · rw [step_of_illegal hp hw hd] at h
    cases h
    rfl
  · rw [errcode_eq_firstCause h]
    simp only [List.mem_cons, List.not_mem_nil, or_false] at hi
    rcases hi with rfl | rfl | rfl | rfl | rfl | rfl <;> exact gatedCode_unconfigured hc
  · rcases exec_cases h with ⟨c, -, -, hne, rfl⟩ | ⟨u, -, rfl, -⟩
    · exact hne
    · exact nofun

end Sys2Proof.Machine

namespace Sys2Proof.Machine

/-! ### The host's turns under a pending command (R65, R67, R150) -/

/-- A turn of the host on a busy block that it does not reset changes at most OVR and the host's side, and leaves no
reset to do. -/
theorem hostTurn_of_busy {s : State} (hb : s.busy = true) (hr : .hardReset ∉ s.todo) :
    ∃ d ops rs o, .hardReset ∉ ops ∧ hostTurn s =
      { s with draws := d, todo := ops, responses := rs, status := { s.status with ovr := o } } := by
  rcases hostTurn_cases s with ⟨-, ht⟩ | ⟨rest, ho, -⟩ | ⟨op, rest, d, rs, ho, -, -, htodo, ht⟩ |
    ⟨a, v, rest, ho, -, -, ht⟩ | ⟨a, v, rest, -, -, hidle, -⟩
  · exact ⟨s.draws, s.todo, s.responses, s.status.ovr, hr, ht⟩
  · simp [ho] at hr
  · refine ⟨d, (hostTurn s).todo, rs, s.status.ovr, ?_, ht⟩
    rw [htodo]
    split
    · exact hr
    · exact fun hmem => hr (ho ▸ List.mem_cons_of_mem op hmem)
  · exact ⟨s.draws, rest, _, true, fun hmem => hr (ho ▸ List.mem_cons_of_mem _ hmem), ht⟩
  · simp [hb] at hidle

/-- While a command runs on a block that is not reset, the latency runs out with no other change than in OVR and on the
host's side. -/
theorem runsTo_due {s : State} {w : Word} (hp : s.pending = some w) (hr : .hardReset ∉ s.todo) :
    ∃ d ops rs o, RunsTo s.wait s
      { s with wait := 0, draws := d, todo := ops, responses := rs, status := { s.status with ovr := o } } := by
  induction hw : s.wait generalizing s with
  | zero => exact ⟨s.draws, s.todo, s.responses, s.status.ovr, (runsTo_zero ..).mpr (by rw [← hw])⟩
  | succ n ih =>
    obtain ⟨d, ops, rs, o, hops, hturn⟩ := hostTurn_of_busy (s := { s with wait := n }) (by simp [State.busy, hp]) hr
    have hstep := (step_of_waiting hp hw).trans (congrArg _ hturn)
    obtain ⟨d', ops', rs', o', hrun⟩ := ih (s := { s with
      wait := n, draws := d, todo := ops, responses := rs, status := { s.status with ovr := o } }) hp hops rfl
    exact ⟨d', ops', rs', o', (runsTo_succ ..).mpr ⟨_, hstep, hrun⟩⟩

/-! ### The statement of 70_reset_and_hazards.md on the pending command -/

/-- Settles O56: the latency runs out on the operands the word was accepted with, and the next step completes it. -/
theorem pendingCommandCompletesOnItsOperands : Obligations.PendingCommandCompletesOnItsOperands := by
  unfold Obligations.PendingCommandCompletesOnItsOperands
  intro s w hp hr
  obtain ⟨d, ops, rs, o, hrun⟩ := runsTo_due hp hr
  obtain ⟨t, hcomplete⟩ := exists_completeWord_eq_next w
    { s with wait := 0, draws := d, todo := ops, responses := rs, status := { s.status with ovr := o } }
  refine ⟨_, t, hrun, rfl, hcomplete, runsTo_add hrun (runsTo_one ?_), (completeWord_keepsInputs hcomplete).2⟩
  rw [← hcomplete]
  exact step_of_due hp rfl

end Sys2Proof.Machine
